-- ==== Sys2Proof/Word.lean ====
section
/-! DEFINITION. The words of the block and the two value types its operands are made of: bytes, 16-bit
fields, 32-bit codewords, 26-bit groups, and the carry of the Bit Reassembler (`10_state.md` R23, R24;
`30_encoding.md` R81, R82). All quantities are unsigned (`00_scope.md` R11). -/

namespace Sys2Proof

/-- One byte of a datagram, of the staging buffer or of the sink (`20_memory.md` R50). -/
abbrev Byte := BitVec 8

/-- A 16-bit field: wire opcode, block number, error code (`20_memory.md` R51). -/
abbrev Half := BitVec 16

/-- Format `CW32`: position `i` of the codeword is bit `i`, of weight `2^i` (`00_scope.md` R11, R81). -/
abbrev Codeword := BitVec 32

/-- Format `G26`: element `g[i]` of the group is bit `i` (`30_encoding.md` R82). -/
abbrev Group := BitVec 26

/-- The decoder carry state (`10_state.md` R24): 0, 2, 4 or 6 bits, the first argument the oldest bit
`carry[0]`. The lengths 1, 3, 5 and 7 cannot be written down, as R24 asks (decision D27). -/
inductive Carry where
  | c0
  | c2 (b0 b1 : Bool)
  | c4 (b0 b1 b2 b3 : Bool)
  | c6 (b0 b1 b2 b3 b4 b5 : Bool)
  deriving DecidableEq, Repr

/-- What the codec answers for a codeword (`40_codec.md` R120, R125): the group, or Uncorrectable with the
syndrome it carries for information. -/
inductive CodecResult where
  | ok (g : Group)
  | uncorrectable (syn : BitVec 5)
  deriving DecidableEq, Repr

end Sys2Proof
end

