-- ==== Sys2Proof/Machine/Operands.lean ====
section
/-! DEFINITION. Operand forms: bit sequences and bytes (`00_scope.md` R12, R14; `20_memory.md` R51 to R57), the
carry as a bit sequence (`10_state.md` R24), the slicing of a payload into codewords (R55), the bytes of the
datagrams the block sends (`30_encoding.md` R85, R87), and the classes of a received datagram (R86, R88, R90). -/

namespace Sys2Proof

/-- The number whose binary digits are the sequence, element 0 of weight 1 (R53: the sum of `b[t] * 2^t`). -/
def bitsToNat : List Bool → Nat
  | [] => 0
  | b :: bs => b.toNat + 2 * bitsToNat bs

/-- The word of width `n` whose bit `i` is element `i` of the sequence. -/
def ofBits (n : Nat) (l : List Bool) : BitVec n := BitVec.ofNat n (bitsToNat l)

/-- The bits of a word as a sequence, bit 0 first (`00_scope.md` R12). -/
def toBits {n : Nat} (x : BitVec n) : List Bool := (List.range n).map x.getLsbD

/-- `be16` of two bytes, the first the more significant (`00_scope.md` R14, `20_memory.md` R51). -/
def be16 (hi lo : Byte) : Half := BitVec.ofNat 16 (hi.toNat * 256 + lo.toNat)

/-- The more significant byte of a 16-bit field, at the lower offset (R51). -/
def hiByte (x : Half) : Byte := BitVec.ofNat 8 (x.toNat / 256)

/-- The less significant byte of a 16-bit field (R51). -/
def loByte (x : Half) : Byte := BitVec.ofNat 8 (x.toNat % 256)

/-- `MemWrite(addr, n, v)`: the `n` bytes `v` into a buffer at byte offset `addr` (`00_scope.md` R14). -/
def memWrite (buf : List Byte) (addr : Nat) (v : List Byte) : List Byte :=
  buf.take addr ++ v ++ buf.drop (addr + v.length)

/-- The carry as the sequence `carry[0]`, `carry[1]`, … (`10_state.md` R24). -/
def Carry.bits : Carry → List Bool
  | .c0 => []
  | .c2 b0 b1 => [b0, b1]
  | .c4 b0 b1 b2 b3 => [b0, b1, b2, b3]
  | .c6 b0 b1 b2 b3 b4 b5 => [b0, b1, b2, b3, b4, b5]

/-- `carry_len`, 0, 2, 4 or 6 (R24). -/
def Carry.len (c : Carry) : Nat := c.bits.length

/-- The signal `carry_bits[5:0]`: `carry[i]` for `i < carry_len`, 0 above (R24). -/
def Carry.signal (c : Carry) : BitVec 6 := ofBits 6 c.bits

/-- The carry that holds a bit sequence, if the sequence has one of the four legal lengths (R24, R146). -/
def carryOfBits : List Bool → Option Carry
  | [] => some .c0
  | [b0, b1] => some (.c2 b0 b1)
  | [b0, b1, b2, b3] => some (.c4 b0 b1 b2 b3)
  | [b0, b1, b2, b3, b4, b5] => some (.c6 b0 b1 b2 b3 b4 b5)
  | _ => none

/-- Codeword position to payload bit: `cw[i]` is bit `i mod 8` of byte `i div 8` (`20_memory.md` R52,
`CW_BIT_ORDER = LSB_FIRST`, decision D6). -/
def codewordOfBytes (b0 b1 b2 b3 : Byte) : Codeword :=
  ofBits 32 (toBits b0 ++ toBits b1 ++ toBits b2 ++ toBits b3)

/-- The codewords of a payload in ascending order, codeword `n` at payload offsets `4n` to `4n + 3`
(`20_memory.md` R55). -/
def codewords : List Byte → List Codeword
  | b0 :: b1 :: b2 :: b3 :: rest => codewordOfBytes b0 b1 b2 b3 :: codewords rest
  | _ => []

/-- `MAX_PAYLOAD` (`00_scope.md` R7). -/
def maxPayload : Nat := 512

/-- The payload is neither misaligned nor oversize (`20_memory.md` R56). -/
def payloadOk (payload : List Byte) : Bool :=
  decide (payload.length ≤ maxPayload) && decide (payload.length % 4 = 0)

/-- No zero byte stands in the string (`30_encoding.md` R85: the host must not supply one). -/
def noZeroByte (str : List Byte) : Bool := str.all (fun b => b != 0#8)

/-- `REQ(em, fname, mode)` (`42_transfer_fsm.md` R178, `30_encoding.md` R85). -/
def requestBytes (em : Bool) (fname mode : List Byte) : List Byte :=
  [0x00#8, 0x01#8 + BitVec.ofNat 8 em.toNat] ++ fname ++ [0x00#8] ++ mode ++ [0x00#8]

/-- `ACK(blk)` (`42_transfer_fsm.md` R179, format `BLK`). -/
def ackBytes (blk : Half) : List Byte := [0x00#8, 0x04#8, hiByte blk, loByte blk]

/-- `NACK(blk)` (`42_transfer_fsm.md` R180, format `BLK`). -/
def nackBytes (blk : Half) : List Byte := [0x00#8, 0x06#8, hiByte blk, loByte blk]

/-- The number of the next in-order block: `(expected + 1) mod 65536` (`42_transfer_fsm.md` R165,
`BLK_WRAP = MOD_65536`, decision D9). -/
def nextBlk (expected : Half) : Half := expected + 1

/-- `strip_zeros`: the longest leading part of the bytes whose last byte is not zero (R181). -/
def stripZeros (bytes : List Byte) : List Byte := (bytes.reverse.dropWhile (fun b => b == 0#8)).reverse

/-- What a received datagram is, by its opcode and its length (`42_transfer_fsm.md` R162, R164, R170). -/
inductive RxClass where
  /-- Shorter than its header, or an opcode other than 3 and 5 (R172). -/
  | discard
  | data (blk : Half) (payload : List Byte)
  | error (code : Half) (msg : List Byte)
  deriving DecidableEq, Repr

/-- The classification of a received datagram: the length test before each read (R60), the opcode in bytes 0
and 1, the 16-bit field in bytes 2 and 3, the rest from offset 4 (`20_memory.md` R59). -/
def rxClass : List Byte → RxClass
  | o1 :: o0 :: f1 :: f0 :: rest =>
    if be16 o1 o0 = 3#16 then .data (be16 f1 f0) rest
    else if be16 o1 o0 = 5#16 then .error (be16 f1 f0) rest
    else .discard
  | _ => .discard

end Sys2Proof
end

