-- ==== Sys2Proof/Syntax.lean ====
section
/-! DEFINITION. The operations of the block, one constructor for each row of `opcode_table.json`
(`00_scope.md` R5, `30_encoding.md` R91), and the encoded form in which each one reaches the block. -/

namespace Sys2Proof

/-- One operation of the block: a datagram it sends, the processing of a received datagram, the processing of
a boundary event, or a datapath operation (`00_scope.md` R5). -/
inductive Instr where
  /-- `REQUEST`, wire opcode 1, sent: the file request (`42_transfer_fsm.md` R178). -/
  | request (fname mode : List Byte)
  /-- `ERRREQ`, wire opcode 2, sent: the error-mode request (R178). -/
  | errreq (fname mode : List Byte)
  /-- `DATA`, wire opcode 3, received: block number and payload (R164 to R169, R171). -/
  | data (blk : Half) (payload : List Byte)
  /-- `ACK`, wire opcode 4, sent (R179). -/
  | ack (blk : Half)
  /-- `ERROR`, wire opcode 5, received: error code and message (R170). -/
  | error (code : Half) (msg : List Byte)
  /-- `NACK`, wire opcode 6, sent (R180). -/
  | nack (blk : Half)
  /-- `NOP`, event code 0 and the reserved codes 6 and 7 (R175). -/
  | nop
  /-- `START`, event code 1 (R161). -/
  | start (em : Bool) (fname mode : List Byte)
  /-- `RX`, event code 2, with the whole receive buffer; `rx_len` is its length (R162). -/
  | rx (rxb : List Byte)
  /-- `TICK`, event code 3 (R173, R174). -/
  | tick
  /-- `SINKFAIL`, event code 4 (R176). -/
  | sinkfail
  /-- `RESET`, event code 5 (R177). -/
  | reset
  /-- `CW.SYN`: the syndrome of a codeword (`40_codec.md` R121). -/
  | cwSyn (cw : Codeword)
  /-- `CW.COR`: single-bit correction by a syndrome (R122). -/
  | cwCor (cw : Codeword) (syn : BitVec 5)
  /-- `CW.OPC`: the overall parity (R123). -/
  | cwOpc (cw : Codeword)
  /-- `CW.EXT`: data extraction (R124). -/
  | cwExt (cw : Codeword)
  /-- `CW.DECODE`: the whole decode of a codeword (R125). -/
  | cwDecode (cw : Codeword)
  /-- `RSM.PACK`: bits to bytes (`41_reassembler.md` R143). -/
  | rsmPack (b : List Bool)
  /-- `RSM.STEP`: one group behind a working carry (R144). -/
  | rsmStep (w : Carry) (g : Group)
  /-- `RSM.PAYLOAD`: a whole payload behind the committed carry, which it reads from the state (R145). -/
  | rsmPayload (payload : List Byte)
  deriving DecidableEq, Repr

/-- The operand lines of the event port (`30_encoding.md` R89). -/
structure EventLines where
  em : Bool := false
  fname : List Byte := []
  mode : List Byte := []
  rxb : List Byte := []
  deriving DecidableEq, Repr

/-- The datapath operations by name: they have no opcode (`30_encoding.md` R91; log 2). -/
inductive DatapathOp where
  | cwSyn | cwCor | cwOpc | cwExt | cwDecode | rsmPack | rsmStep | rsmPayload
  deriving DecidableEq, Repr

/-- The operand lines of a datapath operation, raw: nothing says yet that their lengths are legal. -/
structure DatapathLines where
  cw : Codeword := 0
  syn : BitVec 5 := 0
  bits : List Bool := []
  group : Group := 0
  payload : List Byte := []
  deriving DecidableEq, Repr

/-- One encoded operation, as the block takes it in: an event of the boundary (format `EV`), a datagram that
names a wire operation (formats `REQ`, `DATA`, `BLK`, `ERR`), or a datapath operation with its operands
(formats `CW32`, `G26`, bits, payload). Only the first kind comes from the block's environment; the other two
issue one operation alone (log 2). -/
inductive Input where
  | event (code : BitVec 3) (lines : EventLines)
  | datagram (bytes : List Byte)
  | datapath (op : DatapathOp) (lines : DatapathLines)
  deriving DecidableEq, Repr

/-- Why an encoded operation is none of the table's. -/
inductive DecodeError where
  /-- A datagram of fewer than 2 bytes has no opcode (`30_encoding.md` R90). -/
  | noOpcode
  /-- A wire opcode outside 1 to 6 (R84, R92 (a)). -/
  | unknownOpcode
  /-- A DATA, ERROR, ACK or NACK datagram of fewer than 4 bytes (R92 (b)). -/
  | shortHeader
  /-- A payload that is no whole number of codewords (`20_memory.md` R56). -/
  | misalignedPayload
  /-- A payload of more than 512 bytes (R56). -/
  | oversizePayload
  /-- An ACK or NACK datagram of more than 4 bytes (R87). -/
  | trailingBytes
  /-- A request whose file name or mode does not end in a zero byte, or that goes on behind it (R85). -/
  | badRequestStrings
  /-- The bits of `RSM.PACK` are no whole number of bytes (`41_reassembler.md` R143). -/
  | partialByte
  /-- A working carry whose length is not 0, 2, 4 or 6 (R144, R146). -/
  | badCarryLength
  deriving DecidableEq, Repr

end Sys2Proof
end

