-- ==== Sys2Proof/WellFormed.lean ====
section
/-! DEFINITION. Which operations have operands that their format admits (`30_encoding.md` R85, R86,
`41_reassembler.md` R143, R145). The operands of the other formats are legal whatever their bits. -/

namespace Sys2Proof

/-- The operands lie in the domain the operation's format gives them. `START` copies its strings unchecked
(R85, decision D31), so it has no check; a request datagram with a zero byte inside a string could not be read
back. -/
def Instr.wellFormed : Instr → Bool
  | .request fname mode => noZeroByte fname && noZeroByte mode
  | .errreq fname mode => noZeroByte fname && noZeroByte mode
  | .data _ payload => payloadOk payload
  | .ack _ => true
  | .error _ _ => true
  | .nack _ => true
  | .nop => true
  | .start _ _ _ => true
  | .rx _ => true
  | .tick => true
  | .sinkfail => true
  | .reset => true
  | .cwSyn _ => true
  | .cwCor _ _ => true
  | .cwOpc _ => true
  | .cwExt _ => true
  | .cwDecode _ => true
  | .rsmPack b => decide (b.length % 8 = 0)
  | .rsmStep _ _ => true
  | .rsmPayload payload => payloadOk payload

end Sys2Proof
end

