-- ==== Sys2Proof/Decode.lean ====
section
/-! DEFINITION. From encoded operations to `Instr` and back: the wire opcode map (`30_encoding.md` R84 to R92),
the event codes (R89), the datapath operands (R81, R82, `41_reassembler.md` R143 to R145), and the form in which
`opcode_table.json` numbers an operation's bits. -/

namespace Sys2Proof

/-- The bytes before the first zero byte, and the bytes behind it; `none` if there is no zero byte (R85). -/
def splitAtZero : List Byte → Option (List Byte × List Byte)
  | [] => none
  | b :: bs => if b = 0#8 then some ([], bs) else (splitAtZero bs).map (fun p => (b :: p.1, p.2))

/-- The two strings of a request datagram, each ended by a zero byte, with nothing behind the second (R85). -/
def requestStrings (bytes : List Byte) : Except DecodeError (List Byte × List Byte) :=
  match splitAtZero bytes with
  | none => .error .badRequestStrings
  | some (fname, rest) =>
    match splitAtZero rest with
    | some (mode, []) => .ok (fname, mode)
    | _ => .error .badRequestStrings

/-- A payload of DATA or of `RSM.PAYLOAD`: at most 512 bytes, a multiple of 4 (`20_memory.md` R56). -/
def checkPayload (payload : List Byte) : Except DecodeError (List Byte) :=
  if payload.length > maxPayload then .error .oversizePayload
  else if payload.length % 4 ≠ 0 then .error .misalignedPayload
  else .ok payload

/-- The 16-bit field at offset 2 and the bytes from offset 4 (`20_memory.md` R59), given the bytes behind the
opcode. -/
def headerField : List Byte → Except DecodeError (Half × List Byte)
  | f1 :: f0 :: rest => .ok (be16 f1 f0, rest)
  | _ => .error .shortHeader

/-- The block number of an ACK or NACK datagram, which has exactly 4 bytes (R87). -/
def blkField (bytes : List Byte) : Except DecodeError Half :=
  match headerField bytes with
  | .error e => .error e
  | .ok (blk, []) => .ok blk
  | .ok (_, _ :: _) => .error .trailingBytes

/-- The wire operation a datagram names, by its opcode (`30_encoding.md` R84, R90, R91). -/
def decodeDatagram : List Byte → Except DecodeError Instr
  | o1 :: o0 :: rest =>
    match (be16 o1 o0).toNat with
    | 1 => (requestStrings rest).map (fun p => .request p.1 p.2)
    | 2 => (requestStrings rest).map (fun p => .errreq p.1 p.2)
    | 3 =>
      match headerField rest with
      | .error e => .error e
      | .ok (blk, payload) => (checkPayload payload).map (fun p => .data blk p)
    | 4 => (blkField rest).map .ack
    | 5 => (headerField rest).map (fun p => .error p.1 p.2)
    | 6 => (blkField rest).map .nack
    | _ => .error .unknownOpcode
  | _ => .error .noOpcode

/-- The event a 3-bit code names, with its operand lines; the reserved codes 6 and 7 are `NOP` (R89, R92 (c)). -/
def decodeEvent (code : BitVec 3) (lines : EventLines) : Instr :=
  match code.toNat with
  | 1 => .start lines.em lines.fname lines.mode
  | 2 => .rx lines.rxb
  | 3 => .tick
  | 4 => .sinkfail
  | 5 => .reset
  | _ => .nop

/-- A datapath operation with its operand lines; the lengths of bit and byte sequences are checked. -/
def decodeDatapath (op : DatapathOp) (lines : DatapathLines) : Except DecodeError Instr :=
  match op with
  | .cwSyn => .ok (.cwSyn lines.cw)
  | .cwCor => .ok (.cwCor lines.cw lines.syn)
  | .cwOpc => .ok (.cwOpc lines.cw)
  | .cwExt => .ok (.cwExt lines.cw)
  | .cwDecode => .ok (.cwDecode lines.cw)
  | .rsmPack => if lines.bits.length % 8 = 0 then .ok (.rsmPack lines.bits) else .error .partialByte
  | .rsmStep =>
    match carryOfBits lines.bits with
    | some w => .ok (.rsmStep w lines.group)
    | none => .error .badCarryLength
  | .rsmPayload => (checkPayload lines.payload).map .rsmPayload

/-- The operation an encoded input stands for, or the reason why it is none. -/
def decode : Input → Except DecodeError Instr
  | .event code lines => .ok (decodeEvent code lines)
  | .datagram bytes => decodeDatagram bytes
  | .datapath op lines => decodeDatapath op lines

/-- The encoded form of an operation: the datagram of the formats R85 to R88, the event code of R89, or the
datapath operation's name with its operands. Lines an operation does not use are zero or empty. -/
def encode : Instr → Input
  | .request fname mode => .datagram ([0x00#8, 0x01#8] ++ fname ++ [0x00#8] ++ mode ++ [0x00#8])
  | .errreq fname mode => .datagram ([0x00#8, 0x02#8] ++ fname ++ [0x00#8] ++ mode ++ [0x00#8])
  | .data blk payload => .datagram ([0x00#8, 0x03#8, hiByte blk, loByte blk] ++ payload)
  | .ack blk => .datagram [0x00#8, 0x04#8, hiByte blk, loByte blk]
  | .error code msg => .datagram ([0x00#8, 0x05#8, hiByte code, loByte code] ++ msg)
  | .nack blk => .datagram [0x00#8, 0x06#8, hiByte blk, loByte blk]
  | .nop => .event 0 { }
  | .start em fname mode => .event 1 { em := em, fname := fname, mode := mode }
  | .rx rxb => .event 2 { rxb := rxb }
  | .tick => .event 3 { }
  | .sinkfail => .event 4 { }
  | .reset => .event 5 { }
  | .cwSyn cw => .datapath .cwSyn { cw := cw }
  | .cwCor cw syn => .datapath .cwCor { cw := cw, syn := syn }
  | .cwOpc cw => .datapath .cwOpc { cw := cw }
  | .cwExt cw => .datapath .cwExt { cw := cw }
  | .cwDecode cw => .datapath .cwDecode { cw := cw }
  | .rsmPack b => .datapath .rsmPack { bits := b }
  | .rsmStep w g => .datapath .rsmStep { bits := w.bits, group := g }
  | .rsmPayload payload => .datapath .rsmPayload { payload := payload }

/-- The encoded input whose bits are `w`, numbered as `opcode_table.json` numbers them (log 16): one byte is an
event code with empty operand lines; one 16-bit word is a wire opcode, stored big-endian at offsets 0 and 1 and
followed by the two zero bytes of the shortest datagram of its format; one 32-bit word is a codeword, and the
operation of the whole codec is `CW.DECODE`. -/
def tableInput (nbits w : Nat) : Option Input :=
  if nbits = 0 then none
  else if nbits ≤ 8 then
    if w < 8 then some (.event (BitVec.ofNat 3 w) { }) else none
  else if nbits ≤ 16 then
    if w < 65536 then some (.datagram [BitVec.ofNat 8 (w / 256), BitVec.ofNat 8 (w % 256), 0#8, 0#8]) else none
  else if nbits = 32 then
    if w < 4294967296 then some (.datapath .cwDecode { cw := BitVec.ofNat 32 w }) else none
  else none

/-- The instruction the decoder reads from an operation whose bits are `w`; `none` where it refuses. -/
def decodeTableWord (nbits w : Nat) : Option Instr :=
  match tableInput nbits w with
  | none => none
  | some input =>
    match decode input with
    | .ok i => some i
    | .error _ => none

end Sys2Proof
end

