-- ==== Sys2Proof/Machine/Flags.lean ====
section
/-! DEFINITION. The condition values of the block (`10_state.md` R30): the syndrome `syn`, the overall parity
`par`, `unc`, and the parity they are made of (`00_scope.md` R13). The fourth, `pl_ok`, is
`Sys2Proof.payloadFlag` in Machine/Datapath.lean. -/

namespace Sys2Proof

/-- 0 for an even and 1 for an odd count of set bits: their exclusive-or (`00_scope.md` R13). -/
def parity (bits : List Bool) : Bool := bits.foldr Bool.xor false

/-- The positions of syndrome class `k`: those `i` of 0 to 31 with `((i + 1) AND k) ≠ 0` (`40_codec.md` R121,
decision D8). -/
def classPositions (k : Nat) : List Nat := (List.range 32).filter (fun i => (i + 1) &&& k != 0)

/-- `P[k]`, the parity of class `k` (R121). -/
def classParity (k : Nat) (cw : Codeword) : Bool := parity ((classPositions k).map cw.getLsbD)

/-- `CW.SYN`: the five class parities, each with its class number as weight (R121). -/
def syndrome (cw : Codeword) : BitVec 5 :=
  BitVec.ofNat 5 (1 * (classParity 1 cw).toNat + 2 * (classParity 2 cw).toNat + 4 * (classParity 4 cw).toNat +
    8 * (classParity 8 cw).toNat + 16 * (classParity 16 cw).toNat)

/-- `CW.OPC`: the parity of all 32 positions (R123). -/
def overallParity (cw : Codeword) : Bool := parity (toBits cw)

end Sys2Proof
end

