-- ==== Sys2Proof/Machine/Datapath.lean ====
section
/-! DEFINITION. The datapath as pure functions: the Codeword Codec (`40_codec.md` R121 to R126) and the Bit
Reassembler (`41_reassembler.md` R143 to R145). They read no state and write none. -/

namespace Sys2Proof

/-- The codeword with position `i` inverted (`40_codec.md` R122). -/
def flipBit (cw : Codeword) (i : Nat) : Codeword := cw ^^^ BitVec.twoPow 32 i

/-- `CW.COR`: position `syn - 1` inverted if the syndrome is not 0, whatever the overall parity (R122). -/
def correct (cw : Codeword) (syn : BitVec 5) : Codeword :=
  if syn = 0#5 then cw else flipBit cw (syn.toNat - 1)

/-- `DATA_POS`, the data positions in ascending order (`00_scope.md` R8). -/
def dataPos : List Nat :=
  [2, 4, 5, 6, 8, 9, 10, 11, 12, 13, 14, 16, 17, 18, 19, 20, 21, 22, 23, 24, 25, 26, 27, 28, 29, 30]

/-- `CW.EXT`: `g[25 - j] = cw'[DATA_POS[j]]`, so the group lists the data positions in descending order (R124). -/
def extract (cw : Codeword) : Group := ofBits 26 (dataPos.reverse.map cw.getLsbD)

/-- `CW.DECODE`: syndrome, correction, overall parity; Uncorrectable if that is odd, else the group (R125). -/
def decodeCodeword (cw : Codeword) : CodecResult :=
  let syn := syndrome cw
  let cw' := correct cw syn
  if overallParity cw' then .uncorrectable syn else .ok (extract cw')

/-- The first `n` bytes of a bit sequence (R143). -/
def packCount : Nat → List Bool → List Byte
  | 0, _ => []
  | n + 1, bits => ofBits 8 (bits.take 8) :: packCount n (bits.drop 8)

/-- `RSM.PACK`: `len(b) / 8` bytes, byte `m` from the bits `b[8m]` to `b[8m+7]`, `b[8m]` the least significant
(`41_reassembler.md` R143). -/
def packBytes (bits : List Bool) : List Byte := packCount (bits.length / 8) bits

/-- `RSM.STEP`: the working carry, then the group; 32 bits give 4 bytes and no carry, fewer give 3 bytes and
the rest as the next working carry (R144). The rest has 2, 4 or 6 bits, so the last `getD` is never used
(R146; `Laws.rsmStep_bits`). -/
def rsmStep (w : Carry) (g : Group) : List Byte × Carry :=
  let buf := w.bits ++ toBits g
  if buf.length = 32 then (packBytes (buf.take 32), .c0)
  else (packBytes (buf.take 24), (carryOfBits (buf.drop 24)).getD .c0)

/-- The working storage of one payload decode (`10_state.md` R22, R32): the codeword index, the working carry,
the staging buffer. It has no value between steps. -/
structure Work where
  cwi : Nat
  wCarry : Carry
  stg : List Byte
  deriving DecidableEq, Repr

/-- One accepted codeword: its group goes through `RSM.STEP`, the bytes go behind those staged (R144, R145). -/
def acceptGroup (k : Work) (g : Group) : Work where
  cwi := k.cwi + 1
  wCarry := (rsmStep k.wCarry g).2
  stg := memWrite k.stg k.stg.length (rsmStep k.wCarry g).1

/-- The loop of `RSM.PAYLOAD`: the first Uncorrectable codeword ends it and drops the working storage (R145). -/
def decodeLoop (k : Work) : List Codeword → Option Work
  | [] => some k
  | cw :: rest =>
    match decodeCodeword cw with
    | .uncorrectable _ => none
    | .ok g => decodeLoop (acceptGroup k g) rest

/-- `RSM.PAYLOAD`: all or nothing. `some (bytes, w)` is `Ok(bytes, w)`, `none` is `Fail` (R145). -/
def decodePayload (carry : Carry) (payload : List Byte) : Option (List Byte × Carry) :=
  (decodeLoop { cwi := 0, wCarry := carry, stg := [] } (codewords payload)).map (fun k => (k.stg, k.wCarry))

/-- The flag `pl_ok` (`10_state.md` R30 (d), R145). -/
def payloadFlag (r : Option (List Byte × Carry)) : Bool := r.isSome

end Sys2Proof
end

