-- ==== Sys2Proof/Config.lean ====
section
/-! DEFINITION. The parameters of the block (`00_scope.md` R9, R10): what an instantiation fixes before reset
and no step changes (`70_reset_and_hazards.md` R236). The spec gives the open ones no value, so their values
after reset are constants without a body. -/

namespace Sys2Proof

/-- The parameters one instantiation of the block is built with (`00_scope.md` R9, R10; log 5, 6, 19). -/
structure Config where
  /-- `FINAL_THRESHOLD`, in decoded bytes (R9 (a), decision D16, open). -/
  finalThreshold : Nat
  /-- `ACK_TICKS`, the timer load after an ACK (R9 (b), decision D10, open). -/
  ackTicks : Nat
  /-- `NACK_TICKS`, the timer load after a NACK (R9 (c), decision D10, open). -/
  nackTicks : Nat
  /-- `TIMER_W`, the width of the timer counter in bits (R9 (d), open). -/
  timerW : Nat
  /-- `FINAL_ACK`, whether the final block is acknowledged (R10, R168, decision D15: false). -/
  finalAck : Bool
  /-- Whether a `START` is delivered before a `SINKFAIL` of the same clock period: R207 leaves it open. -/
  startBeforeSinkfail : Bool
  deriving DecidableEq, Repr

/-- The premises R9 puts on the open parameters. -/
abbrev Config.ok (c : Config) : Prop :=
  1 ≤ c.finalThreshold ∧ c.finalThreshold ≤ 416 ∧ 1 ≤ c.nackTicks ∧ c.nackTicks < c.ackTicks ∧
    c.ackTicks < 2 ^ c.timerW

/-- The open value of `FINAL_THRESHOLD`, less one: any of 0 to 415 (R9 (a)). -/
opaque Config.freeThreshold : Fin 416

/-- The open value of `NACK_TICKS`, less one (R9 (c)). -/
opaque Config.freeNackTicks : Nat

/-- How much longer `ACK_TICKS` is than `NACK_TICKS`, less one (R9 (b)). -/
opaque Config.freeAckExtra : Nat

/-- How much wider the timer is than `ACK_TICKS` needs (R9 (d)). -/
opaque Config.freeTimerExtra : Nat

/-- The open order of `START` and `SINKFAIL` in one clock period (R207). -/
opaque Config.freeStartBeforeSinkfail : Bool

/-- The parameters of the machine after reset. Every choice that R9 admits for the first three, and every
sufficient width, is a value of the constants above; `FINAL_ACK` is false by `90_conflicts.md` C4. -/
def Config.implementation : Config where
  finalThreshold := Config.freeThreshold.val + 1
  nackTicks := Config.freeNackTicks + 1
  ackTicks := Config.freeNackTicks + 1 + (Config.freeAckExtra + 1)
  timerW := Nat.log2 (Config.freeNackTicks + 1 + (Config.freeAckExtra + 1)) + 1 + Config.freeTimerExtra
  finalAck := false
  startBeforeSinkfail := Config.freeStartBeforeSinkfail

end Sys2Proof
end

