-- ==== Sys2Proof/Machine/State.lean ====
section
/-! DEFINITION. The state of the block: its eleven architectural items (`10_state.md` R20 to R28), its reset
values (R34), and what the model holds beside them: the parameters, the inputs still to come, the effects
emitted, and what the last datapath operation answered. -/

namespace Sys2Proof.Machine

/-- The register `state` (`10_state.md` R21). `requesting`, `acking` and `nacking` are passed through inside a
step. The code 7 is never written and cannot be written down (R21). -/
inductive TransferState where
  | idle | requesting | awaiting | acking | nacking | done | failed
  deriving DecidableEq, Repr

/-- The register `last_kind` (R27); the code 3 cannot be written down. -/
inductive LastKind where
  | none | ack | nack
  deriving DecidableEq, Repr

/-- The register `fail_cause` (R28); the code 3 cannot be written down. -/
inductive FailCause where
  | none | protocol | sink
  deriving DecidableEq, Repr

/-- The architectural state of one block instance, exactly the items of `10_state.md` R20. -/
structure Regs where
  /-- `state`, 3 bits (R21). -/
  state : TransferState
  /-- `expected`, the number of the last block accepted (R23). -/
  expected : Half
  /-- `carry`, the committed carry (R24). -/
  carry : Carry
  /-- `em`, set when the transfer was started in the error-injection variant (R25). -/
  em : Bool
  /-- `timer_armed` (R26). -/
  timerArmed : Bool
  /-- `timer_count`, the `TICK` events still to come before expiry (R26; log 13: a number, not `TIMER_W` bits). -/
  timerCount : Nat
  /-- `last_kind`, the kind of the last response sent (R27). -/
  lastKind : LastKind
  /-- `last_blk`, the block number of the last response sent (R27). -/
  lastBlk : Half
  /-- `fail_cause` (R28). -/
  failCause : FailCause
  /-- `err_code`, the code of the ERROR response, else 0 (R28). -/
  errCode : Half
  /-- `sink_fault`, sticky (R28). -/
  sinkFault : Bool
  deriving DecidableEq, Repr

/-- The value of every item after reset (`10_state.md` R34). -/
def Regs.reset : Regs where
  state := .idle
  expected := 0
  carry := .c0
  em := false
  timerArmed := false
  timerCount := 0
  lastKind := .none
  lastBlk := 0
  failCause := .none
  errCode := 0
  sinkFault := false

/-- The output effects of a step (`00_scope.md` R15). -/
inductive Effect where
  /-- Hand one datagram to the transport. -/
  | tx (bytes : List Byte)
  /-- Append bytes to the output sink. -/
  | sinkAppend (bytes : List Byte)
  | sinkFlush
  | sinkClose
  /-- Invoke the error callback. -/
  | errCb (code : Half) (msg : List Byte)
  /-- Report success to the host. -/
  | doneOk
  deriving DecidableEq, Repr

/-- The condition values an issued datapath operation wrote (`10_state.md` R30); `none` where it wrote none.
They have no value between the steps of a transfer (log 4). -/
structure Flags where
  syn : Option (BitVec 5) := none
  par : Option Bool := none
  unc : Option Bool := none
  plOk : Option Bool := none
  deriving DecidableEq, Repr

/-- The result of an issued datapath operation (`40_codec.md`, `41_reassembler.md`; log 4). -/
inductive DatapathResult where
  | syndrome (syn : BitVec 5)
  | corrected (cw : Codeword)
  | parity (par : Bool)
  | group (g : Group)
  | decoded (r : CodecResult)
  | packed (out : List Byte)
  | stepped (out : List Byte) (w : Carry)
  /-- `some (bytes, w)` is `Ok(bytes, w)`, `none` is `Fail` (`41_reassembler.md` R145). -/
  | payload (r : Option (List Byte × Carry))
  deriving DecidableEq, Repr

/-- The state of the machine: the block and its boundary. -/
structure State where
  /-- The architectural state (`10_state.md` R20). -/
  regs : Regs
  /-- The parameters, fixed before reset; no step writes them (`00_scope.md` R9, R10; log 5). -/
  cfg : Config
  /-- The inputs still to be processed, in the order they are delivered (`60_exceptions.md` R207; log 1). -/
  pending : List Input
  /-- Every effect emitted so far, oldest first (`00_scope.md` R15, `20_memory.md` R61; log 3). -/
  effects : List Effect
  /-- The condition values of the datapath operation just issued (log 4). -/
  flags : Flags
  /-- The result of the datapath operation just issued (log 4). -/
  result : Option DatapathResult
  deriving DecidableEq, Repr

/-- The block after reset: every item of R20 at the value of R34, nothing delivered, nothing emitted
(`70_reset_and_hazards.md` R230 to R232). -/
def State.reset : State where
  regs := Regs.reset
  cfg := Config.implementation
  pending := []
  effects := []
  flags := { }
  result := none

/-- The block has no condition that stops it with a fault: Uncorrectable ends in a NACK, a protocol ERROR and a
sink failure end in the state `failed`, malformed input is discarded (`60_exceptions.md` R200; log 23). The type
has no constructor, so no step can raise one (safe). -/
inductive Fault where
  deriving DecidableEq, Repr

/-- Why the machine answers no next state. -/
inductive Refusal where
  /-- Raised by exec for an instruction that has no meaning yet; no arm raises it (safe: the run stops). -/
  | notModelled (mnemonic : String)
  /-- Raised by step for a datapath operation issued alone with operands outside the domain of its rule
  (`41_reassembler.md` R143, R144, R145; log 15); the block itself never issues one (safe: the run stops). -/
  | undecodable (e : DecodeError)
  deriving DecidableEq, Repr

end Sys2Proof.Machine
end

