-- ==== Sys2Proof/Machine/Ops.lean ====
section
/-! DEFINITION. The named operations over the state that the meanings are made of: register writes, effects,
the timer, entry to FAILED and the way out of it, and the handling of received datagrams and of timer expiry
(`42_transfer_fsm.md`, `60_exceptions.md`). -/

namespace Sys2Proof.Machine

/-! ### Register writes -/

/-- `state <- st` (`10_state.md` R21). -/
def Regs.goto (r : Regs) (st : TransferState) : Regs := { r with state := st }

/-- `em <- b` (R25). -/
def Regs.setEm (r : Regs) (b : Bool) : Regs := { r with em := b }

/-- `timer_armed <- 0 ; timer_count <- 0` (R26). -/
def Regs.disarm (r : Regs) : Regs := { r with timerArmed := false, timerCount := 0 }

/-- `timer_armed <- 1 ; timer_count <- n`: arming an armed timer replaces its count (R26). -/
def Regs.arm (r : Regs) (n : Nat) : Regs := { r with timerArmed := true, timerCount := n }

/-- `timer_count <- n` (`42_transfer_fsm.md` R173, R174). -/
def Regs.setCount (r : Regs) (n : Nat) : Regs := { r with timerCount := n }

/-- `carry <- w ; expected <- blk`: the commit of an accepted block (R23, R24, R167, R168). -/
def Regs.commit (r : Regs) (w : Carry) (blk : Half) : Regs := { r with carry := w, expected := blk }

/-- `last_kind <- k ; last_blk <- blk` (R27). -/
def Regs.recordLast (r : Regs) (k : LastKind) (blk : Half) : Regs := { r with lastKind := k, lastBlk := blk }

/-- `err_code <- code` (R28). -/
def Regs.setErrCode (r : Regs) (code : Half) : Regs := { r with errCode := code }

/-- `sink_fault <- 1` (R28). -/
def Regs.setSinkFault (r : Regs) : Regs := { r with sinkFault := true }

/-- The trap-like entry, one for every failure (`60_exceptions.md` R208): the cause is recorded, the timer
disarmed, and `state` becomes FAILED. Nothing is saved for a return. -/
def Regs.fail (r : Regs) (cause : FailCause) : Regs :=
  { r with failCause := cause, timerArmed := false, timerCount := 0, state := .failed }

/-- A register write on the whole state: everything but the registers keeps its value. -/
def State.upd (s : State) (f : Regs → Regs) : State := { s with regs := f s.regs }

/-- `emit E` (`00_scope.md` R14, R15). -/
def State.emit (s : State) (e : Effect) : State := { s with effects := s.effects ++ [e] }

/-- The answer of a datapath operation: its result and the condition values it wrote (`10_state.md` R30). -/
def State.answer (s : State) (flags : Flags) (r : DatapathResult) : State :=
  { s with flags := flags, result := some r }

/-! ### What the host sees -/

/-- The code of `state` (`10_state.md` R21, `30_encoding.md` R96). -/
def TransferState.code : TransferState → BitVec 3
  | .idle => 0
  | .requesting => 1
  | .awaiting => 2
  | .acking => 3
  | .nacking => 4
  | .done => 5
  | .failed => 6

/-- The code of `last_kind` (R27). -/
def LastKind.code : LastKind → BitVec 2
  | .none => 0
  | .ack => 1
  | .nack => 2

/-- The code of `fail_cause` (R28). -/
def FailCause.code : FailCause → BitVec 2
  | .none => 0
  | .protocol => 1
  | .sink => 2

/-- The bytes appended to the output sink so far (`20_memory.md` R50 (d), R61). -/
def sinkOf : List Effect → List Byte
  | [] => []
  | .sinkAppend bytes :: rest => bytes ++ sinkOf rest
  | .tx _ :: rest => sinkOf rest
  | .sinkFlush :: rest => sinkOf rest
  | .sinkClose :: rest => sinkOf rest
  | .errCb _ _ :: rest => sinkOf rest
  | .doneOk :: rest => sinkOf rest

/-- The content of the output sink (R50 (d)). -/
def State.sink (s : State) : List Byte := sinkOf s.effects

/-- The host's verdict: success exactly when `state = DONE` and `sink_fault = 0` (`10_state.md` R28). -/
def State.success (s : State) : Bool := decide (s.regs.state = .done) && !s.regs.sinkFault

/-! ### Sending -/

/-- `TX(REQ(em, fname, mode))` (`42_transfer_fsm.md` R178). -/
def sendRequest (em : Bool) (fname mode : List Byte) (s : State) : State := s.emit (.tx (requestBytes em fname mode))

/-- `TX(ACK(blk))` (R179). -/
def sendAck (blk : Half) (s : State) : State := s.emit (.tx (ackBytes blk))

/-- `TX(NACK(blk))` (R180). -/
def sendNack (blk : Half) (s : State) : State := s.emit (.tx (nackBytes blk))

/-! ### Failure and reset -/

/-- Protocol ERROR (R170, `60_exceptions.md` R202, R208): flush, close, callback, then the entry to FAILED. -/
def protocolError (code : Half) (msg : List Byte) (s : State) : State :=
  ((((s.emit .sinkFlush).emit .sinkClose).emit (.errCb code msg)).upd (fun r => (r.setErrCode code).fail .protocol))

/-- Sink failure (R176, R203): the sticky bit outside IDLE, and from AWAITING the entry to FAILED. -/
def sinkFailure (s : State) : State :=
  match s.regs.state with
  | .idle => s
  | .awaiting => s.upd (fun r => r.setSinkFault.fail .sink)
  | .requesting | .acking | .nacking | .done | .failed => s.upd Regs.setSinkFault

/-- The only return from FAILED and DONE (R177, R209, R230): every item at its reset value, no effect. -/
def restart (s : State) : State := s.upd (fun _ => Regs.reset)

/-! ### In-order DATA -/

/-- Decode success, not the final block (R167). -/
def acceptBlock (blk : Half) (bytes : List Byte) (w : Carry) (s : State) : State :=
  ((sendAck blk (((s.upd (fun r => r.commit w blk)).emit (.sinkAppend bytes)).upd (fun r => r.goto .acking))).upd
    (fun r => ((r.recordLast .ack blk).arm s.cfg.ackTicks).goto .awaiting))

/-- The switch `FINAL_ACK` of the final block (R168). -/
def finalAck (blk : Half) (s : State) : State := if s.cfg.finalAck then sendAck blk s else s

/-- Decode success, final block (R168): the bytes are stripped, then appended. -/
def finishTransfer (blk : Half) (bytes : List Byte) (w : Carry) (s : State) : State :=
  ((((finalAck blk ((s.upd (fun r => r.commit w blk)).emit (.sinkAppend (stripZeros bytes)))).emit .sinkFlush).emit
    .sinkClose).emit .doneOk).upd (fun r => r.goto .done)

/-- Decode failure (R169). -/
def rejectBlock (blk : Half) (s : State) : State :=
  (sendNack blk (s.upd (fun r => r.goto .nacking))).upd
    (fun r => ((r.recordLast .nack blk).arm s.cfg.nackTicks).goto .awaiting)

/-- In-order DATA (R166): the timer is disarmed first, whether the decode then succeeds or fails
(`70_reset_and_hazards.md` R240). -/
def inOrderData (blk : Half) (payload : List Byte) (s : State) : State :=
  match decodePayload s.regs.carry payload with
  | none => rejectBlock blk (s.upd Regs.disarm)
  | some (bytes, w) =>
    if bytes.length < s.cfg.finalThreshold then finishTransfer blk bytes w (s.upd Regs.disarm)
    else acceptBlock blk bytes w (s.upd Regs.disarm)

/-! ### Receiving -/

/-- A received DATA datagram: the tests in the order of `60_exceptions.md` R207 (R163, R164, R165, R171, R172). -/
def receiveData (blk : Half) (payload : List Byte) (s : State) : State :=
  if s.regs.state ≠ .awaiting then s
  else if payloadOk payload = false then s
  else if blk ≠ nextBlk s.regs.expected then s
  else inOrderData blk payload s

/-- A received ERROR datagram (R163, R170). -/
def receiveError (code : Half) (msg : List Byte) (s : State) : State :=
  if s.regs.state ≠ .awaiting then s else protocolError code msg s

/-- A received datagram (R162, R163, R172). -/
def receive (rxb : List Byte) (s : State) : State :=
  match rxClass rxb with
  | .discard => s
  | .data blk payload => receiveData blk payload s
  | .error code msg => receiveError code msg s

/-! ### The timer -/

/-- Timer expiry (R174): the last response again, and the load that belongs to its kind. -/
def timerExpiry (s : State) : State :=
  match s.regs.lastKind with
  | .ack => (sendAck s.regs.lastBlk s).upd (fun r => r.setCount s.cfg.ackTicks)
  | .nack => (sendNack s.regs.lastBlk s).upd (fun r => r.setCount s.cfg.nackTicks)
  | .none => s

/-- One tick (R173): an armed timer counts down, and the tick that brings it to 0 is the expiry. -/
def countDown (s : State) : State :=
  if s.regs.timerArmed then
    if s.regs.timerCount - 1 = 0 then timerExpiry (s.upd (fun r => r.setCount 0))
    else s.upd (fun r => r.setCount (r.timerCount - 1))
  else s

/-! ### Starting -/

/-- `START` (R161): acts in IDLE only. -/
def startTransfer (em : Bool) (fname mode : List Byte) (s : State) : State :=
  if s.regs.state = .idle then
    (sendRequest em fname mode (s.upd (fun r => (r.setEm em).goto .requesting))).upd (fun r => r.goto .awaiting)
  else s

/-! ### Taking an input in -/

/-- The state in which an input that has left the queue is processed: the answer of an earlier datapath
operation is gone (`10_state.md` R30, R32). -/
def State.taking (s : State) (rest : List Input) : State :=
  { s with pending := rest, flags := { }, result := none }

/-- What happens to an input that decodes to no operation: a datagram is discarded (`30_encoding.md` R92,
`42_transfer_fsm.md` R172), a datapath operation outside the domain of its rule is refused (log 15). -/
def undecoded (input : Input) (e : DecodeError) (s : State) : Host.Outcome State Fault Refusal :=
  match input with
  | .event _ _ => .refused (.undecodable e)
  | .datagram _ => .next s
  | .datapath _ _ => .refused (.undecodable e)

/-- What one clock period of the boundary brings (`60_exceptions.md` R207). -/
structure Period where
  reset : Bool
  start : Option EventLines
  sinkfail : Bool
  rx : Option (List Byte)
  tick : Bool
  deriving DecidableEq, Repr

/-- The order in which the events of one clock period are delivered: `RESET`, the other host events, `RX`,
`TICK` (R207). The order of `START` and `SINKFAIL` is open (log 19). -/
def Period.order (startFirst : Bool) (p : Period) : List Input :=
  let start := match p.start with
    | some lines => [Input.event 1 { em := lines.em, fname := lines.fname, mode := lines.mode }]
    | none => []
  let sinkfail := if p.sinkfail then [Input.event 4 { }] else []
  let rx := match p.rx with
    | some rxb => [Input.event 2 { rxb := rxb }]
    | none => []
  (if p.reset then [Input.event 5 { }] else []) ++
    (if startFirst then start ++ sinkfail else sinkfail ++ start) ++ rx ++
    (if p.tick then [Input.event 3 { }] else [])

/-- The events of one clock period join the inputs still to be processed (R207). -/
def State.deliver (s : State) (p : Period) : State :=
  { s with pending := s.pending ++ p.order s.cfg.startBeforeSinkfail }

end Sys2Proof.Machine
end

