-- ==== Sys2Proof/Machine/Codec.lean ====
section
/-! DEFINITION. The operations of the Codeword Codec, each issued alone (`40_codec.md` R121 to R125): the result
and the condition values it writes go to the answer port, the registers keep their values (R120; log 2, 4). -/

namespace Sys2Proof.Machine

/-- `CW.SYN`: writes `syn` (R121). -/
def execCwSyn (cw : Codeword) (s : State) : Host.Outcome State Fault Refusal :=
  .next (s.answer { syn := some (syndrome cw) } (.syndrome (syndrome cw)))

/-- `CW.COR`: writes no condition value (R122). -/
def execCwCor (cw : Codeword) (syn : BitVec 5) (s : State) : Host.Outcome State Fault Refusal :=
  .next (s.answer { } (.corrected (correct cw syn)))

/-- `CW.OPC`: writes `par` (R123). -/
def execCwOpc (cw : Codeword) (s : State) : Host.Outcome State Fault Refusal :=
  .next (s.answer { par := some (overallParity cw) } (.parity (overallParity cw)))

/-- `CW.EXT`: writes no condition value (R124). -/
def execCwExt (cw : Codeword) (s : State) : Host.Outcome State Fault Refusal :=
  .next (s.answer { } (.group (extract cw)))

/-- `CW.DECODE`: writes `syn`, `par` and `unc`, which equals `par` (R125). -/
def execCwDecode (cw : Codeword) (s : State) : Host.Outcome State Fault Refusal :=
  .next (s.answer
    { syn := some (syndrome cw)
      par := some (overallParity (correct cw (syndrome cw)))
      unc := some (overallParity (correct cw (syndrome cw))) }
    (.decoded (decodeCodeword cw)))

end Sys2Proof.Machine
end

