-- ==== Sys2Proof/Machine/Events.lean ====
section
/-! DEFINITION. The boundary events (`30_encoding.md` R89, `42_transfer_fsm.md` R160 to R177). -/

namespace Sys2Proof.Machine

/-- `NOP` and the reserved event codes: no state change, no effect, in every state (R175). -/
def execNop (s : State) : Host.Outcome State Fault Refusal := .next s

/-- `START` (R161). -/
def execStart (em : Bool) (fname mode : List Byte) (s : State) : Host.Outcome State Fault Refusal :=
  .next (startTransfer em fname mode s)

/-- `RX` (R162, R163). -/
def execRx (rxb : List Byte) (s : State) : Host.Outcome State Fault Refusal := .next (receive rxb s)

/-- `TICK` (R173, R174). -/
def execTick (s : State) : Host.Outcome State Fault Refusal := .next (countDown s)

/-- `SINKFAIL` (R176). -/
def execSinkfail (s : State) : Host.Outcome State Fault Refusal := .next (sinkFailure s)

/-- `RESET` (R177). -/
def execReset (s : State) : Host.Outcome State Fault Refusal := .next (restart s)

end Sys2Proof.Machine
end

