-- ==== Sys2Proof/Machine/Reassembler.lean ====
section
/-! DEFINITION. The operations of the Bit Reassembler, each issued alone (`41_reassembler.md` R143 to R145): they
answer and leave the registers as they are; `RSM.PAYLOAD` reads the committed carry (log 2, 4). -/

namespace Sys2Proof.Machine

/-- `RSM.PACK` (R143). -/
def execRsmPack (b : List Bool) (s : State) : Host.Outcome State Fault Refusal :=
  .next (s.answer { } (.packed (packBytes b)))

/-- `RSM.STEP` (R144). -/
def execRsmStep (w : Carry) (g : Group) (s : State) : Host.Outcome State Fault Refusal :=
  .next (s.answer { } (.stepped (rsmStep w g).1 (rsmStep w g).2))

/-- `RSM.PAYLOAD`: writes `pl_ok`; the carry, the sink and every other register keep their values (R145). -/
def execRsmPayload (payload : List Byte) (s : State) : Host.Outcome State Fault Refusal :=
  .next (s.answer { plOk := some (payloadFlag (decodePayload s.regs.carry payload)) }
    (.payload (decodePayload s.regs.carry payload)))

end Sys2Proof.Machine
end

