-- ==== Sys2Proof/Machine/Wire.lean ====
section
/-! DEFINITION. The wire operations: the four datagrams the block sends (`42_transfer_fsm.md` R178 to R180) and
the two it gives a meaning to when received (R164 to R171). Issued alone, a sent datagram is its transmission and
nothing else; the event that sends it also writes registers (log 2). -/

namespace Sys2Proof.Machine

/-- `REQUEST`: opcode 1, `em = 0` (R178). -/
def execRequest (fname mode : List Byte) (s : State) : Host.Outcome State Fault Refusal :=
  .next (sendRequest false fname mode s)

/-- `ERRREQ`: opcode 2, `em = 1` (R178). -/
def execErrreq (fname mode : List Byte) (s : State) : Host.Outcome State Fault Refusal :=
  .next (sendRequest true fname mode s)

/-- `DATA`, received (R164 to R169, R171). -/
def execData (blk : Half) (payload : List Byte) (s : State) : Host.Outcome State Fault Refusal :=
  .next (receiveData blk payload s)

/-- `ACK`, sent (R179). -/
def execAck (blk : Half) (s : State) : Host.Outcome State Fault Refusal := .next (sendAck blk s)

/-- `ERROR`, received (R170). -/
def execError (code : Half) (msg : List Byte) (s : State) : Host.Outcome State Fault Refusal :=
  .next (receiveError code msg s)

/-- `NACK`, sent (R180). -/
def execNack (blk : Half) (s : State) : Host.Outcome State Fault Refusal := .next (sendNack blk s)

end Sys2Proof.Machine
end

