-- ==== Sys2Proof/Machine/Dispatch.lean ====
section
/-! DEFINITION. One arm for each operation of the table, each a call of its meaning. -/

namespace Sys2Proof.Machine

def exec (i : Instr) (s : State) : Host.Outcome State Fault Refusal :=
  match i with
  | .request fname mode => Sys2Proof.Machine.execRequest fname mode s
  | .errreq fname mode => Sys2Proof.Machine.execErrreq fname mode s
  | .data blk payload => Sys2Proof.Machine.execData blk payload s
  | .ack blk => Sys2Proof.Machine.execAck blk s
  | .error code msg => Sys2Proof.Machine.execError code msg s
  | .nack blk => Sys2Proof.Machine.execNack blk s
  | .nop => Sys2Proof.Machine.execNop s
  | .start em fname mode => Sys2Proof.Machine.execStart em fname mode s
  | .rx rxb => Sys2Proof.Machine.execRx rxb s
  | .tick => Sys2Proof.Machine.execTick s
  | .sinkfail => Sys2Proof.Machine.execSinkfail s
  | .reset => Sys2Proof.Machine.execReset s
  | .cwSyn cw => Sys2Proof.Machine.execCwSyn cw s
  | .cwCor cw syn => Sys2Proof.Machine.execCwCor cw syn s
  | .cwOpc cw => Sys2Proof.Machine.execCwOpc cw s
  | .cwExt cw => Sys2Proof.Machine.execCwExt cw s
  | .cwDecode cw => Sys2Proof.Machine.execCwDecode cw s
  | .rsmPack b => Sys2Proof.Machine.execRsmPack b s
  | .rsmStep w g => Sys2Proof.Machine.execRsmStep w g s
  | .rsmPayload payload => Sys2Proof.Machine.execRsmPayload payload s

end Sys2Proof.Machine
end

