-- ==== Sys2Proof/Machine/Step.lean ====
section
/-! DEFINITION. One step of the machine: it takes the next input in and processes it (`00_scope.md` R6); with
nothing to process it waits (`60_exceptions.md` R214). -/

namespace Sys2Proof.Machine

/-- One step. Waiting is the absence of inputs and leaves all state unchanged (R214). -/
def step (s : State) : Host.Outcome State Fault Refusal :=
  match s.pending with
  | [] => .next s
  | input :: rest =>
    match decode input with
    | .ok i => exec i (s.taking rest)
    | .error e => undecoded input e (s.taking rest)

/-- The state in which the very next step takes in the operation whose bits are `w`, numbered as
`opcode_table.json` numbers them: it stands in front of the inputs still to be processed (log 1, 16). Bits that
encode no input leave the state as it is. -/
def State.withFetchWord (s : State) (nbits w : Nat) : State :=
  match tableInput nbits w with
  | some input => { s with pending := input :: s.pending }
  | none => s

end Sys2Proof.Machine
end

