-- ==== Sys2Proof/Safety.lean ====
section
/-! DEFINITION. The terms claims are made in: the invariants between steps (`10_state.md` R33), the operations
that come from the block's environment, and runs. -/

namespace Sys2Proof.Machine

/-- `carry_len` is 0, 2, 4 or 6 (R33 (a)). -/
abbrev Regs.carryLegal (r : Regs) : Prop :=
  r.carry.len = 0 ∨ r.carry.len = 2 ∨ r.carry.len = 4 ∨ r.carry.len = 6

/-- An armed timer has a response to resend and a transfer to resend it for (R33 (b)). -/
abbrev Regs.armedMeansAwaiting (r : Regs) : Prop :=
  r.timerArmed = true → r.state = .awaiting ∧ (r.lastKind = .ack ∨ r.lastKind = .nack)

/-- The count of the timer is in range (R33 (c)). -/
abbrev Regs.countInRange (r : Regs) (ackTicks : Nat) : Prop :=
  (r.timerArmed = true → 1 ≤ r.timerCount ∧ r.timerCount ≤ ackTicks) ∧ (r.timerArmed = false → r.timerCount = 0)

/-- While AWAITING, the last response is about the block last accepted or the one it waits for (R33 (d)). -/
abbrev Regs.lastMatches (r : Regs) : Prop :=
  r.state = .awaiting →
    (r.lastKind = .ack → r.lastBlk = r.expected) ∧ (r.lastKind = .nack → r.lastBlk = nextBlk r.expected)

/-- `state` is none of the transient states (R33 (e)). -/
abbrev Regs.stateSettled (r : Regs) : Prop :=
  r.state = .idle ∨ r.state = .awaiting ∨ r.state = .done ∨ r.state = .failed

/-- A cause is recorded exactly in FAILED (R33 (f)). -/
abbrev Regs.causeMatches (r : Regs) : Prop := r.failCause ≠ .none ↔ r.state = .failed

/-- In IDLE every item has its reset value (R33 (g)). -/
abbrev Regs.idleIsReset (r : Regs) : Prop := r.state = .idle → r = Regs.reset

/-- An error code is held only for a protocol ERROR (R28). -/
abbrev Regs.codeMatches (r : Regs) : Prop := r.failCause ≠ .protocol → r.errCode = 0

/-- The invariants of `10_state.md` R33 (a) to (g), and the one R28 states of `err_code`. -/
abbrev Regs.inv (r : Regs) (c : Config) : Prop :=
  r.carryLegal ∧ r.armedMeansAwaiting ∧ r.countInRange c.ackTicks ∧ r.lastMatches ∧ r.stateSettled ∧
    r.causeMatches ∧ r.idleIsReset ∧ r.codeMatches

/-- The state invariant: the parameters meet the premises of `00_scope.md` R9, the registers meet R33. -/
abbrev State.inv (s : State) : Prop := s.cfg.ok ∧ s.regs.inv s.cfg

end Sys2Proof.Machine

namespace Sys2Proof

/-- The bytes as one sequence of bits, the least significant bit of each first (`20_memory.md` R53). -/
def bitsOf (bytes : List Byte) : List Bool := bytes.flatMap toBits

/-- The group bits of a sequence of codewords, `g[0]` first; an Uncorrectable codeword has none
(`41_reassembler.md` R149). -/
def groupBits : List Codeword → List Bool
  | [] => []
  | cw :: rest =>
    match decodeCodeword cw with
    | .ok g => toBits g ++ groupBits rest
    | .uncorrectable _ => groupBits rest

/-- A valid codeword: syndrome 0 and even overall parity (`40_codec.md` R127). -/
abbrev validCodeword (cw : Codeword) : Prop := syndrome cw = 0#5 ∧ overallParity cw = false

/-- `got` is the valid codeword `clean` with no position flipped, or one of 0 to 30 (`40_codec.md` R128 (a), (b)). -/
abbrev atMostOneFlip (clean got : Codeword) : Prop :=
  validCodeword clean ∧ (got = clean ∨ ∃ p, p ≤ 30 ∧ got = clean ^^^ BitVec.twoPow 32 p)

/-- The operation is an event of the boundary, one of the six of `30_encoding.md` R89. -/
def Instr.isEvent : Instr → Bool
  | .nop => true
  | .start _ _ _ => true
  | .rx _ => true
  | .tick => true
  | .sinkfail => true
  | .reset => true
  | .request _ _ => false
  | .errreq _ _ => false
  | .data _ _ => false
  | .ack _ => false
  | .error _ _ => false
  | .nack _ => false
  | .cwSyn _ => false
  | .cwCor _ _ => false
  | .cwOpc _ => false
  | .cwExt _ => false
  | .cwDecode _ => false
  | .rsmPack _ => false
  | .rsmStep _ _ => false
  | .rsmPayload _ => false

end Sys2Proof

namespace Sys2Proof.Machine

/-- A DATA datagram with this block number and payload is the in-order block the machine waits for
(`42_transfer_fsm.md` R163 to R165). -/
abbrev State.inOrderFor (s : State) (blk : Half) (payload : List Byte) : Prop :=
  s.regs.state = .awaiting ∧ payload.length ≤ 512 ∧ payload.length % 4 = 0 ∧
    blk.toNat = (s.regs.expected.toNat + 1) % 65536

/-- The operation is the reception of a DATA datagram with this block number and payload: the wire operation
`DATA`, or the event `RX` with its bytes (`30_encoding.md` R86, `20_memory.md` R51). -/
abbrev isData (i : Instr) (blk : Half) (payload : List Byte) : Prop :=
  i = .data blk payload ∨
    ∃ hi lo : Byte, hi.toNat * 256 + lo.toNat = blk.toNat ∧ i = .rx ([0x00#8, 0x03#8, hi, lo] ++ payload)

/-- The operation is the reception of an ERROR datagram with this code and message (`30_encoding.md` R88). -/
abbrev isError (i : Instr) (code : Half) (msg : List Byte) : Prop :=
  i = .error code msg ∨
    ∃ hi lo : Byte, hi.toNat * 256 + lo.toNat = code.toNat ∧ i = .rx ([0x00#8, 0x05#8, hi, lo] ++ msg)

/-- The payload, if it is that of the in-order block of this state and decodes. -/
def acceptedIn (s : State) (blk : Half) (payload : List Byte) : Option (List Byte) :=
  if s.inOrderFor blk payload ∧ (decodePayload s.regs.carry payload).isSome = true then some payload else none

/-- The payload of the block that the operation makes the machine accept, if any (`42_transfer_fsm.md` R166 to
R168). -/
def acceptedPayload (i : Instr) (s : State) : Option (List Byte) :=
  match i with
  | .data blk payload => acceptedIn s blk payload
  | .rx rxb =>
    match rxClass rxb with
    | .data blk payload => acceptedIn s blk payload
    | .error _ _ => none
    | .discard => none
  | _ => none

/-- The effect ends the transfer for the host (`42_transfer_fsm.md` R182). -/
def Effect.isEnding : Effect → Bool
  | .doneOk => true
  | .errCb _ _ => true
  | .tx _ => false
  | .sinkAppend _ => false
  | .sinkFlush => false
  | .sinkClose => false

/-- The operations processed one after another, from one state (a trace, `30_encoding.md` R94). -/
def runOps : List Instr → State → Host.Outcome State Fault Refusal
  | [], s => .next s
  | i :: rest, s =>
    match exec i s with
    | .next t => runOps rest t
    | .fault f => .fault f
    | .refused r => .refused r

/-- The group bits of the blocks accepted along a run, in order (`41_reassembler.md` R149). -/
def acceptedBits : List Instr → State → List Bool
  | [], _ => []
  | i :: rest, s =>
    (match acceptedPayload i s with
      | some payload => groupBits (codewords payload)
      | none => []) ++
    (match exec i s with
      | .next t => acceptedBits rest t
      | .fault _ => []
      | .refused _ => [])

end Sys2Proof.Machine
end

