-- ==== Sys2Proof/Certificates/Slice0/Obligations.lean ====
section
/-! DEFINITION. The statements about the machine, one for a rule of the spec or a few rules that belong together.
The title, the rules cited and the quoted sentences stand in OBLIGATIONS.json. -/

open Sys2Proof Sys2Proof.Machine

/-! ### Reset, waiting, taking an input in -/

/-- What reset leaves (`10_state.md` R34, `70_reset_and_hazards.md` R230): every item of R20, by value. -/
def Obligations.ResetGivesEveryItemItsValue : Prop :=
  State.reset.regs =
    { state := .idle, expected := 0, carry := .c0, em := false, timerArmed := false, timerCount := 0,
      lastKind := .none, lastBlk := 0, failCause := .none, errCode := 0, sinkFault := false }

/-- The event RESET in every state (R177): every item of R20 at its reset value, no effect; the parameters, the
inputs still to come and what has been emitted stay (log 3, 5). Nothing else leaves DONE or FAILED. -/
def Obligations.ResetEventRestoresEveryItem : Prop :=
  (∀ s : State, exec .reset s = .next
    { s with regs :=
      { state := .idle, expected := 0, carry := .c0, em := false, timerArmed := false, timerCount := 0,
        lastKind := .none, lastBlk := 0, failCause := .none, errCode := 0, sinkFault := false } }) ∧
  ∀ (i : Instr) (s t : State), exec i s = .next t → s.regs.state = .done ∨ s.regs.state = .failed →
    t.regs.state ≠ s.regs.state → i = .reset

/-- Waiting is the absence of inputs (`60_exceptions.md` R214); that inputs wait in a list is the model's (log 1). -/
def Obligations.WaitingLeavesAllStateUnchanged : Prop :=
  ∀ s : State, s.pending = [] → step s = .next s

/-- One step takes one input in and runs the operation it decodes to (`00_scope.md` R6); the queue and the answer
port are the model's (log 1, 4). -/
def Obligations.StepRunsTheDecodedOperation : Prop :=
  ∀ (s : State) (input : Input) (rest : List Input) (i : Instr),
    s.pending = input :: rest → decode input = .ok i →
      step s = exec i { s with pending := rest, flags := { }, result := none }

/-- Every event is processed in one step (`20_memory.md` R63), whatever its code, its operands and the state. -/
def Obligations.EveryEventIsProcessedInOneStep : Prop :=
  ∀ (s : State) (code : BitVec 3) (lines : EventLines) (rest : List Input),
    s.pending = .event code lines :: rest → ∃ t, step s = .next t ∧ t.pending = rest

/-- No operation of the table faults or refuses, in any state and with any operands. For operations issued alone
(log 2), for operands outside their format, which the spec gives no result and a step refuses before it runs them
(log 15), and in that the block has no fault (log 23), this is the model's choice. -/
def Obligations.EveryOperationCompletes : Prop :=
  ∀ (i : Instr) (s : State), ∃ t, exec i s = .next t

/-- An encoded input that is no operation (log 2, 15): a datagram is discarded as R172 discards one received, a
datapath operation outside the domain of its rule is refused by name. -/
def Obligations.InputsThatAreNoOperation : Prop :=
  ∀ (s : State) (rest : List Input) (e : DecodeError),
    (∀ bytes, s.pending = .datagram bytes :: rest → decode (.datagram bytes) = .error e →
      step s = .next { s with pending := rest, flags := { }, result := none }) ∧
    (∀ op lines, s.pending = .datapath op lines :: rest → decode (.datapath op lines) = .error e →
      step s = .refused (.undecodable e))

/-- The events of one clock period are delivered RESET first, then the other host events, then RX, then TICK
(`60_exceptions.md` R207); the order of START and SINKFAIL is open (log 19). -/
def Obligations.PeriodIsDeliveredInOrder : Prop :=
  ∀ (s : State) (p : Period),
    ∃ host : List Input,
      (host = ((p.start.map (fun l => Input.event 1 { em := l.em, fname := l.fname, mode := l.mode })).toList ++
          (if p.sinkfail then [.event 4 { }] else [])) ∨
        host = (if p.sinkfail then [.event 4 { }] else []) ++
          (p.start.map (fun l => Input.event 1 { em := l.em, fname := l.fname, mode := l.mode })).toList) ∧
      s.deliver p = { s with pending := s.pending ++ ((if p.reset then [.event 5 { }] else []) ++ host ++
        (p.rx.map (fun b => Input.event 2 { rxb := b })).toList ++ (if p.tick then [.event 3 { }] else [])) }

/-! ### Encodings -/

/-- No bit of an operation is lost between its encoded form and the decoder. -/
def Obligations.DecodeOfEncodeIsTheOperation : Prop :=
  ∀ i : Instr, i.wellFormed = true → decode (encode i) = .ok i

/-- What the decoder accepts has operands its format admits: on the datagram port, which is the model's (log 2), those
of `30_encoding.md` R85 and R86; for RSM.PACK and RSM.PAYLOAD the domain of `41_reassembler.md` R143 and R145, outside
which the model chooses to refuse (log 15). -/
def Obligations.DecodedOperationsAreWellFormed : Prop :=
  ∀ (input : Input) (i : Instr), decode input = .ok i → i.wellFormed = true

/-- Wire opcodes outside 1 to 6 name no operation, and every other opcode the six of `30_encoding.md` R84. -/
def Obligations.WireOpcodeMap : Prop :=
  ∀ (o1 o0 : Byte) (rest : List Byte) (i : Instr), decode (.datagram (o1 :: o0 :: rest)) = .ok i →
    (o1.toNat * 256 + o0.toNat = 1 ∧ ∃ f m, i = .request f m) ∨
    (o1.toNat * 256 + o0.toNat = 2 ∧ ∃ f m, i = .errreq f m) ∨
    (o1.toNat * 256 + o0.toNat = 3 ∧ ∃ b p, i = .data b p) ∨
    (o1.toNat * 256 + o0.toNat = 4 ∧ ∃ b, i = .ack b) ∨
    (o1.toNat * 256 + o0.toNat = 5 ∧ ∃ c m, i = .error c m) ∨
    (o1.toNat * 256 + o0.toNat = 6 ∧ ∃ b, i = .nack b)

/-- The words of the opcode table, as the table writes them, decode to their rows (log 16 for the padding). -/
def Obligations.TableWordsDecodeToTheirRows : Prop :=
  decodeTableWord 16 0x0001 = some (.request [] []) ∧ decodeTableWord 16 0x0002 = some (.errreq [] []) ∧
  decodeTableWord 16 0x0003 = some (.data 0 []) ∧ decodeTableWord 16 0x0004 = some (.ack 0) ∧
  decodeTableWord 16 0x0005 = some (.error 0 []) ∧ decodeTableWord 16 0x0006 = some (.nack 0) ∧
  decodeTableWord 16 0x0007 = none ∧ decodeTableWord 16 0x0100 = none ∧
  decodeTableWord 8 0b000 = some .nop ∧ decodeTableWord 8 0b001 = some (.start false [] []) ∧
  decodeTableWord 8 0b010 = some (.rx []) ∧ decodeTableWord 8 0b011 = some .tick ∧
  decodeTableWord 8 0b100 = some .sinkfail ∧ decodeTableWord 8 0b101 = some .reset ∧
  decodeTableWord 8 0b110 = some .nop ∧ decodeTableWord 8 0b111 = some .nop

/-! ### Events -/

/-- NOP and the reserved event codes (`42_transfer_fsm.md` R175). -/
def Obligations.NopAndReservedCodesChangeNothing : Prop :=
  (∀ s : State, exec .nop s = .next s) ∧
  ∀ (code : BitVec 3) (lines : EventLines), code = 0 ∨ code = 6 ∨ code = 7 →
    decode (.event code lines) = .ok .nop

/-- START (R161, R178): in IDLE the request and AWAITING, elsewhere nothing. -/
def Obligations.StartSendsTheRequestFromIdle : Prop :=
  ∀ (s : State) (em : Bool) (fname mode : List Byte),
    (s.regs.state = .idle → exec (.start em fname mode) s = .next
      { s with
        regs := { s.regs with em := em, state := .awaiting }
        effects := s.effects ++
          [.tx ([0x00#8, if em then 0x02#8 else 0x01#8] ++ fname ++ [0x00#8] ++ mode ++ [0x00#8])] }) ∧
    (s.regs.state ≠ .idle → exec (.start em fname mode) s = .next s)

/-- TICK and timer expiry (R173, R174), for every timer an armed one can hold (`10_state.md` R26). -/
def Obligations.TickCountsDownAndExpires : Prop :=
  ∀ s : State,
    (s.regs.timerArmed = false → exec .tick s = .next s) ∧
    (s.regs.timerArmed = true → 2 ≤ s.regs.timerCount →
      exec .tick s = .next { s with regs := { s.regs with timerCount := s.regs.timerCount - 1 } }) ∧
    (s.regs.timerArmed = true → s.regs.timerCount = 1 → s.regs.lastKind = .ack →
      exec .tick s = .next
        { s with
          regs := { s.regs with timerCount := s.cfg.ackTicks }
          effects := s.effects ++ [.tx [0x00#8, 0x04#8, hiByte s.regs.lastBlk, loByte s.regs.lastBlk]] }) ∧
    (s.regs.timerArmed = true → s.regs.timerCount = 1 → s.regs.lastKind = .nack →
      exec .tick s = .next
        { s with
          regs := { s.regs with timerCount := s.cfg.nackTicks }
          effects := s.effects ++ [.tx [0x00#8, 0x06#8, hiByte s.regs.lastBlk, loByte s.regs.lastBlk]] })

/-- SINKFAIL (R176), in every state; the error callback is not invoked and nothing is emitted. -/
def Obligations.SinkFailureIsRecordedAndEndsATransfer : Prop :=
  ∀ s : State,
    (s.regs.state = .idle → exec .sinkfail s = .next s) ∧
    (s.regs.state = .awaiting → exec .sinkfail s = .next
      { s with
        regs := { s.regs with
          sinkFault := true, failCause := .sink, timerArmed := false, timerCount := 0, state := .failed } }) ∧
    (s.regs.state ≠ .idle → s.regs.state ≠ .awaiting → exec .sinkfail s = .next
      { s with regs := { s.regs with sinkFault := true } })

/-! ### Received datagrams -/

/-- RX outside AWAITING (R163), whatever the datagram. -/
def Obligations.RxOutsideAwaitingDoesNothing : Prop :=
  ∀ (s : State) (rxb : List Byte), s.regs.state ≠ .awaiting → exec (.rx rxb) s = .next s

/-- The datagrams R172 discards: no opcode, an opcode other than 3 and 5, a header cut short, a payload that is
oversize or no whole number of codewords. -/
def Obligations.MalformedDatagramsAreDiscarded : Prop :=
  ∀ (s : State) (rxb : List Byte),
    (rxb.length < 2 → exec (.rx rxb) s = .next s) ∧
    (∀ (o1 o0 : Byte) (rest : List Byte), rxb = o1 :: o0 :: rest →
      ((o1.toNat * 256 + o0.toNat ≠ 3 ∧ o1.toNat * 256 + o0.toNat ≠ 5) ∨ rxb.length < 4 ∨
        (o1.toNat * 256 + o0.toNat = 3 ∧ (rxb.length - 4 > 512 ∨ (rxb.length - 4) % 4 ≠ 0))) →
      exec (.rx rxb) s = .next s)

/-- A DATA block that is not the in-order one (R165, R171): nothing changes, the timer included, nothing is sent. -/
def Obligations.OutOfOrderDataIsDiscarded : Prop :=
  ∀ (s : State) (blk : Half) (payload : List Byte) (i : Instr), isData i blk payload →
    blk.toNat ≠ (s.regs.expected.toNat + 1) % 65536 → exec i s = .next s

/-- The ACK path (R167): an in-order block that decodes to at least the threshold. -/
def Obligations.AcceptedBlockIsCommittedAndAcknowledged : Prop :=
  ∀ (s : State) (blk : Half) (payload bytes : List Byte) (w : Carry) (i : Instr),
    isData i blk payload → s.inOrderFor blk payload → decodePayload s.regs.carry payload = some (bytes, w) →
    s.cfg.finalThreshold ≤ bytes.length →
      exec i s = .next
        { s with
          regs := { s.regs with
            carry := w, expected := blk, lastKind := .ack, lastBlk := blk, timerArmed := true,
            timerCount := s.cfg.ackTicks, state := .awaiting }
          effects := s.effects ++ [.sinkAppend bytes, .tx [0x00#8, 0x04#8, hiByte blk, loByte blk]] }

/-- The final block (R168): an in-order block that decodes to less than the threshold. -/
def Obligations.FinalBlockEndsTheTransfer : Prop :=
  ∀ (s : State) (blk : Half) (payload bytes : List Byte) (w : Carry) (i : Instr),
    isData i blk payload → s.inOrderFor blk payload → decodePayload s.regs.carry payload = some (bytes, w) →
    bytes.length < s.cfg.finalThreshold →
      exec i s = .next
        { s with
          regs := { s.regs with
            carry := w, expected := blk, timerArmed := false, timerCount := 0, state := .done }
          effects := s.effects ++ ([.sinkAppend (stripZeros bytes)] ++
            (if s.cfg.finalAck then [.tx [0x00#8, 0x04#8, hiByte blk, loByte blk]] else []) ++
            [.sinkFlush, .sinkClose, .doneOk]) }

/-- The NACK path (R169): an in-order block with an Uncorrectable codeword; the carry, `expected` and the sink
keep their values. -/
def Obligations.RejectedBlockIsAnsweredByNack : Prop :=
  ∀ (s : State) (blk : Half) (payload : List Byte) (i : Instr),
    isData i blk payload → s.inOrderFor blk payload → decodePayload s.regs.carry payload = none →
      exec i s = .next
        { s with
          regs := { s.regs with
            lastKind := .nack, lastBlk := blk, timerArmed := true, timerCount := s.cfg.nackTicks,
            state := .awaiting }
          effects := s.effects ++ [.tx [0x00#8, 0x06#8, hiByte blk, loByte blk]] }

/-- A protocol ERROR (R170, `60_exceptions.md` R208): in AWAITING the entry to FAILED with everything else kept,
elsewhere nothing; cut short before its code, nothing in any state. -/
def Obligations.ErrorResponseFailsTheTransfer : Prop :=
  ∀ s : State,
    (∀ (code : Half) (msg : List Byte) (i : Instr), isError i code msg →
      (s.regs.state = .awaiting → exec i s = .next
        { s with
          regs := { s.regs with
            failCause := .protocol, errCode := code, timerArmed := false, timerCount := 0, state := .failed }
          effects := s.effects ++ [.sinkFlush, .sinkClose, .errCb code msg] }) ∧
      (s.regs.state ≠ .awaiting → exec i s = .next s)) ∧
    ∀ rest : List Byte, rest.length < 2 → exec (.rx ([0x00#8, 0x05#8] ++ rest)) s = .next s

/-! ### Sent datagrams, issued alone (log 2) -/

/-- REQUEST and ERRREQ issued alone: the datagram of R178 and R85, and nothing else. -/
def Obligations.RequestDatagramsAreTransmitted : Prop :=
  ∀ (s : State) (fname mode : List Byte),
    exec (.request fname mode) s = .next { s with effects := s.effects ++
      [.tx ([0x00#8, 0x01#8] ++ fname ++ [0x00#8] ++ mode ++ [0x00#8])] } ∧
    exec (.errreq fname mode) s = .next { s with effects := s.effects ++
      [.tx ([0x00#8, 0x02#8] ++ fname ++ [0x00#8] ++ mode ++ [0x00#8])] }

/-- ACK and NACK issued alone: the four bytes of R179 and R180, the block number big-endian (R87, R51). -/
def Obligations.ResponseDatagramsAreTransmitted : Prop :=
  ∀ (s : State) (blk : Half) (hi lo : Byte), hi.toNat = blk.toNat / 256 → lo.toNat = blk.toNat % 256 →
    exec (.ack blk) s = .next { s with effects := s.effects ++ [.tx [0x00#8, 0x04#8, hi, lo]] } ∧
    exec (.nack blk) s = .next { s with effects := s.effects ++ [.tx [0x00#8, 0x06#8, hi, lo]] }

/-- `strip_zeros` (R181) removes the trailing zero bytes and no others. -/
def Obligations.StripZerosRemovesExactlyTheTrailingZeros : Prop :=
  ∀ bytes : List Byte, (∃ n, bytes = stripZeros bytes ++ List.replicate n 0x00#8) ∧
    (stripZeros bytes).getLast? ≠ some 0x00#8

/-! ### The codec -/

/-- CW.SYN (`40_codec.md` R121): bit `j` of the answer is odd when an odd number of positions `i` with bit `j` of
`i + 1` set are set; no register and no effect changes (R120). -/
def Obligations.SyndromeIsTheFiveClassParities : Prop :=
  ∀ (s : State) (cw : Codeword), ∃ syn : BitVec 5,
    exec (.cwSyn cw) s = .next { s with flags := { syn := some syn }, result := some (.syndrome syn) } ∧
    ∀ j, j < 5 → syn.getLsbD j =
      decide (((List.range 32).countP (fun i => (i + 1).testBit j && cw.getLsbD i)) % 2 = 1)

/-- The classes as masks (R121, the vectors V-C23). -/
def Obligations.SyndromeClassesAreTheMasks : Prop :=
  ∀ cw : Codeword,
    classParity 1 cw = overallParity (cw &&& 0x55555555#32) ∧
    classParity 2 cw = overallParity (cw &&& 0x66666666#32) ∧
    classParity 4 cw = overallParity (cw &&& 0x78787878#32) ∧
    classParity 8 cw = overallParity (cw &&& 0x7F807F80#32) ∧
    classParity 16 cw = overallParity (cw &&& 0x7FFF8000#32)

/-- CW.COR (R122): exactly position `syn - 1` is inverted, none for syndrome 0. -/
def Obligations.CorrectionInvertsTheNamedPosition : Prop :=
  ∀ (s : State) (cw : Codeword) (syn : BitVec 5), ∃ cw' : Codeword,
    exec (.cwCor cw syn) s = .next { s with flags := { }, result := some (.corrected cw') } ∧
    ∀ i, i < 32 → cw'.getLsbD i = if i + 1 = syn.toNat then !cw.getLsbD i else cw.getLsbD i

/-- After the correction by its own syndrome a codeword has syndrome 0 (R122, derived there). -/
def Obligations.CorrectedCodewordHasSyndromeZero : Prop :=
  ∀ cw : Codeword, syndrome (correct cw (syndrome cw)) = 0#5

/-- CW.OPC (R123): the parity of all 32 positions. -/
def Obligations.OverallParityCountsAllPositions : Prop :=
  ∀ (s : State) (cw : Codeword), ∃ par : Bool,
    exec (.cwOpc cw) s = .next { s with flags := { par := some par }, result := some (.parity par) } ∧
    par = decide (((List.range 32).countP (fun i => cw.getLsbD i)) % 2 = 1)

/-- CW.EXT (R124): the data positions in descending order; a check position never reaches the group. -/
def Obligations.ExtractionReversesTheDataPositions : Prop :=
  ∀ (s : State) (cw : Codeword), ∃ g : Group,
    exec (.cwExt cw) s = .next { s with flags := { }, result := some (.group g) } ∧
    (∀ j, j < 26 → g.getLsbD (25 - j) = cw.getLsbD
      ([2, 4, 5, 6, 8, 9, 10, 11, 12, 13, 14, 16, 17, 18, 19, 20, 21, 22, 23, 24, 25, 26, 27, 28, 29, 30].getD j 0)) ∧
    ∀ p, p ∈ [0, 1, 3, 7, 15, 31] → extract (cw ^^^ BitVec.twoPow 32 p) = g

/-- CW.DECODE (R125): the four outcomes by the syndrome and the parity of the input, with the condition values. -/
def Obligations.DecodeHasTheFourOutcomes : Prop :=
  ∀ (s : State) (cw : Codeword), ∃ (par : Bool) (r : CodecResult),
    exec (.cwDecode cw) s = .next
      { s with
        flags := { syn := some (syndrome cw), par := some par, unc := some par }
        result := some (.decoded r) } ∧
    (syndrome cw = 0#5 → overallParity cw = false → par = false ∧ r = .ok (extract cw)) ∧
    (syndrome cw = 0#5 → overallParity cw = true → par = true ∧ r = .uncorrectable 0#5) ∧
    (syndrome cw ≠ 0#5 → overallParity cw = true →
      par = false ∧ r = .ok (extract (cw ^^^ BitVec.twoPow 32 ((syndrome cw).toNat - 1)))) ∧
    (syndrome cw ≠ 0#5 → overallParity cw = false → par = true ∧ r = .uncorrectable (syndrome cw))

/-- The asymmetric case (R126): syndrome 0 and odd overall parity are rejected with nothing corrected; so is a valid
codeword with only position 31 flipped. -/
def Obligations.AsymmetricCaseIsRejected : Prop :=
  (∀ cw : Codeword, syndrome cw = 0#5 → overallParity cw = true →
    correct cw (syndrome cw) = cw ∧ decodeCodeword cw = .uncorrectable 0#5) ∧
  ∀ cw : Codeword, validCodeword cw → decodeCodeword (cw ^^^ BitVec.twoPow 32 31) = .uncorrectable 0#5

/-- A valid codeword with one of the positions 0 to 30 flipped decodes to the group of the valid one (R128 (b)). -/
def Obligations.SingleFlipsAreCorrected : Prop :=
  ∀ (cw : Codeword) (p : Nat), validCodeword cw → p ≤ 30 →
    decodeCodeword (cw ^^^ BitVec.twoPow 32 p) = .ok (extract cw)

/-- A valid codeword with two positions flipped, 31 included, is rejected in every case (R128 (d)). -/
def Obligations.DoubleFlipsAreDetected : Prop :=
  ∀ (cw : Codeword) (p q : Nat), validCodeword cw → p < q → q ≤ 31 →
    ∃ syn, decodeCodeword (cw ^^^ BitVec.twoPow 32 p ^^^ BitVec.twoPow 32 q) = .uncorrectable syn

/-- Every group is carried by exactly one valid codeword, and that codeword decodes to it (R127). -/
def Obligations.EveryGroupHasOneValidCodeword : Prop :=
  ∀ g : Group, ∃ cw : Codeword, validCodeword cw ∧ decodeCodeword cw = .ok g ∧
    ∀ cw' : Codeword, validCodeword cw' → extract cw' = g → cw' = cw

/-! ### The reassembler -/

/-- Codeword position to payload bit, and the slicing of a payload (`20_memory.md` R52, R55). -/
def Obligations.CodewordsAreSlicedFromThePayload : Prop :=
  ∀ payload : List Byte, payload.length % 4 = 0 →
    (codewords payload).length = payload.length / 4 ∧
    ∀ n i, n < payload.length / 4 → i < 32 →
      ((codewords payload).getD n 0).getLsbD i = (payload.getD (4 * n + i / 8) 0).getLsbD (i % 8)

/-- RSM.PACK (`41_reassembler.md` R143) on a whole number of bytes. -/
def Obligations.PackPutsTheFirstBitLowest : Prop :=
  ∀ (s : State) (b : List Bool), b.length % 8 = 0 → ∃ out : List Byte,
    exec (.rsmPack b) s = .next { s with flags := { }, result := some (.packed out) } ∧
    out.length = b.length / 8 ∧
    ∀ m t, m < out.length → t < 8 → (out.getD m 0).getLsbD t = b.getD (8 * m + t) false

/-- RSM.STEP (R144, R146): the carry first, then the group; 3 or 4 bytes out, the rest carried, in order. -/
def Obligations.StepEmitsCarryThenGroup : Prop :=
  ∀ (s : State) (w : Carry) (g : Group), ∃ (out : List Byte) (w' : Carry),
    exec (.rsmStep w g) s = .next { s with flags := { }, result := some (.stepped out w') } ∧
    bitsOf out ++ w'.bits = w.bits ++ toBits g ∧
    out.length = (if w.len = 6 then 4 else 3) ∧
    (w.len = 0 → w'.len = 2) ∧ (w.len = 2 → w'.len = 4) ∧ (w.len = 4 → w'.len = 6) ∧ (w.len = 6 → w'.len = 0)

/-- RSM.PAYLOAD (R145): all or nothing, from the committed carry, which it does not write. -/
def Obligations.PayloadDecodesAllOrNothing : Prop :=
  ∀ (s : State) (payload : List Byte), payload.length ≤ 512 → payload.length % 4 = 0 →
    ∃ r : Option (List Byte × Carry),
      exec (.rsmPayload payload) s = .next
        { s with flags := { plOk := some r.isSome }, result := some (.payload r) } ∧
      r = decodePayload s.regs.carry payload ∧
      (r = none ↔ ∃ cw ∈ codewords payload, ∃ syn, decodeCodeword cw = .uncorrectable syn) ∧
      ∀ bytes w, r = some (bytes, w) → bitsOf bytes ++ w.bits = s.regs.carry.bits ++ groupBits (codewords payload)

/-- The decoded length and the carry length of a payload (R148). -/
def Obligations.DecodedLengthIsDetermined : Prop :=
  ∀ (c w : Carry) (payload bytes : List Byte), payload.length ≤ 512 → payload.length % 4 = 0 →
    decodePayload c payload = some (bytes, w) →
      bytes.length = (c.len + 26 * (payload.length / 4)) / 8 ∧ w.len = (c.len + 26 * (payload.length / 4)) % 8 ∧
      bytes.length ≤ 416

/-! ### The machine -/

/-- The invariants of `10_state.md` R33, and R28's of `err_code`, hold after reset; R9's premises hold of the
parameters, whose open values the model leaves free (log 5), and `FINAL_ACK` is false (R10, log 6). -/
def Obligations.ResetMeetsTheInvariants : Prop := State.reset.inv ∧ State.reset.cfg.finalAck = false

/-- Every step keeps the invariants of R33 and R28, from every state that meets them. -/
def Obligations.EveryStepKeepsTheInvariants : Prop :=
  ∀ s t : State, s.inv → step s = .next t → t.inv

/-- The parameters and the inputs still to come are no operation's to change, and effects are only ever added. -/
def Obligations.OperationsOnlyAppendEffects : Prop :=
  ∀ (i : Instr) (s t : State), exec i s = .next t →
    t.cfg = s.cfg ∧ t.pending = s.pending ∧ ∃ new, t.effects = s.effects ++ new

/-- `expected`, the carry and the sink move only when a block is accepted, and then as the decode says, or with
RESET, which leaves the sink (`10_state.md` R23, R24, `70_reset_and_hazards.md` R242). -/
def Obligations.CommitHappensOnlyOnAcceptance : Prop :=
  ∀ (i : Instr) (s t : State), exec i s = .next t → i ≠ .reset →
    (acceptedPayload i s = none →
      t.regs.expected = s.regs.expected ∧ t.regs.carry = s.regs.carry ∧ t.sink = s.sink) ∧
    ∀ payload, acceptedPayload i s = some payload → ∃ bytes w,
      decodePayload s.regs.carry payload = some (bytes, w) ∧
      t.regs.expected.toNat = (s.regs.expected.toNat + 1) % 65536 ∧ t.regs.carry = w ∧
      t.sink = s.sink ++ (if bytes.length < s.cfg.finalThreshold then stripZeros bytes else bytes)

/-- DONE and FAILED are absorbing (R182, R209): only RESET leaves them, only SINKFAIL leaves a mark. -/
def Obligations.EndStatesAreAbsorbing : Prop :=
  ∀ (i : Instr) (s t : State), s.inv → i.isEvent = true → i ≠ .reset →
    (s.regs.state = .done ∨ s.regs.state = .failed) → exec i s = .next t →
      t.effects = s.effects ∧ (i ≠ .sinkfail → t.regs = s.regs) ∧
      (i = .sinkfail → t.regs = { s.regs with sinkFault := true })

/-- The transitions of `state` and their causes (R183). -/
def Obligations.StateChangesOnlyForItsCauses : Prop :=
  ∀ (i : Instr) (s t : State), exec i s = .next t → t.regs.state ≠ s.regs.state →
    (s.regs.state = .idle ∧ t.regs.state = .awaiting ∧ ∃ em f m, i = .start em f m) ∨
    (s.regs.state = .awaiting ∧ t.regs.state = .done ∧ ∃ payload bytes w, acceptedPayload i s = some payload ∧
      decodePayload s.regs.carry payload = some (bytes, w) ∧ bytes.length < s.cfg.finalThreshold) ∨
    (s.regs.state = .awaiting ∧ t.regs.state = .failed ∧ (i = .sinkfail ∨ ∃ code msg, isError i code msg)) ∨
    (t.regs.state = .idle ∧ i = .reset)

/-- The effects an event can emit, in their order (`20_memory.md` R61, R62), each with its cause: bytes before their
ACK, flush and close before the report, the request by START only, the response resent the one last sent (log 10 for
an armed count of 0). -/
def Obligations.EventEffectsAreOneOfTheseShapes : Prop :=
  ∀ (i : Instr) (s t : State), i.isEvent = true → exec i s = .next t →
    ∃ new, t.effects = s.effects ++ new ∧
      (new = [] ∨
       (∃ em f m, i = .start em f m ∧ s.regs.state = .idle ∧ new = [.tx (requestBytes em f m)]) ∨
       (∃ blk payload bytes w, isData i blk payload ∧ s.inOrderFor blk payload ∧
          decodePayload s.regs.carry payload = some (bytes, w) ∧ s.cfg.finalThreshold ≤ bytes.length ∧
          new = [.sinkAppend bytes, .tx (ackBytes blk)]) ∨
       (∃ blk payload bytes w, isData i blk payload ∧ s.inOrderFor blk payload ∧
          decodePayload s.regs.carry payload = some (bytes, w) ∧ bytes.length < s.cfg.finalThreshold ∧
          new = [.sinkAppend (stripZeros bytes)] ++ (if s.cfg.finalAck then [.tx (ackBytes blk)] else []) ++
            [.sinkFlush, .sinkClose, .doneOk]) ∨
       (∃ blk payload, isData i blk payload ∧ s.inOrderFor blk payload ∧
          decodePayload s.regs.carry payload = none ∧ new = [.tx (nackBytes blk)]) ∨
       (∃ code msg, isError i code msg ∧ s.regs.state = .awaiting ∧
          new = [.sinkFlush, .sinkClose, .errCb code msg]) ∨
       (i = .tick ∧ s.regs.timerArmed = true ∧ s.regs.timerCount ≤ 1 ∧
          ((s.regs.lastKind = .ack ∧ new = [.tx (ackBytes s.regs.lastBlk)]) ∨
           (s.regs.lastKind = .nack ∧ new = [.tx (nackBytes s.regs.lastBlk)]))))

/-- Along any run of events without RESET, a transfer is ended at most once, the sink is closed at most once, and
only the report follows a close (R62, R182). -/
def Obligations.TransferEndsAtMostOnce : Prop :=
  ∀ (ops : List Instr) (s t : State), (∀ i ∈ ops, i.isEvent = true ∧ i ≠ .reset) → runOps ops s = .next t →
    ∃ new, t.effects = s.effects ++ new ∧ new.countP Effect.isEnding ≤ 1 ∧ new.count .sinkClose ≤ 1 ∧
      ∀ before after, new = before ++ .sinkClose :: after → ∀ e ∈ after, e.isEnding = true

/-- Without an ERROR, a new block or RESET, an armed timer sends nothing until its count is used up, and then the
last response again (`60_exceptions.md` R206, R173, R174). -/
def Obligations.TimerExpiresAfterExactlyItsCount : Prop :=
  ∀ s : State, s.regs.timerArmed = true →
    (∀ n, n < s.regs.timerCount → runOps (List.replicate n .tick) s =
      .next { s with regs := { s.regs with timerCount := s.regs.timerCount - n } }) ∧
    (1 ≤ s.regs.timerCount → s.regs.lastKind = .ack → runOps (List.replicate s.regs.timerCount .tick) s =
      .next
        { s with
          regs := { s.regs with timerCount := s.cfg.ackTicks }
          effects := s.effects ++ [.tx (ackBytes s.regs.lastBlk)] }) ∧
    (1 ≤ s.regs.timerCount → s.regs.lastKind = .nack → runOps (List.replicate s.regs.timerCount .tick) s =
      .next
        { s with
          regs := { s.regs with timerCount := s.cfg.nackTicks }
          effects := s.effects ++ [.tx (nackBytes s.regs.lastBlk)] })

/-- The retransmission has no limit (R184): `k` times the load of ticks resend the last response, ACK or NACK, `k`
times and change nothing else. -/
def Obligations.RetransmissionHasNoLimit : Prop :=
  ∀ (s : State) (k : Nat), s.regs.timerArmed = true →
    (s.regs.lastKind = .ack → 1 ≤ s.cfg.ackTicks → s.regs.timerCount = s.cfg.ackTicks →
      runOps (List.replicate (k * s.cfg.ackTicks) .tick) s =
        .next { s with effects := s.effects ++ List.replicate k (.tx (ackBytes s.regs.lastBlk)) }) ∧
    (s.regs.lastKind = .nack → 1 ≤ s.cfg.nackTicks → s.regs.timerCount = s.cfg.nackTicks →
      runOps (List.replicate (k * s.cfg.nackTicks) .tick) s =
        .next { s with effects := s.effects ++ List.replicate k (.tx (nackBytes s.regs.lastBlk)) })

/-- Before the first response no tick does anything, however many come (R185, `70_reset_and_hazards.md` R244). -/
def Obligations.NoTimerBeforeTheFirstResponse : Prop :=
  ∀ (s : State) (n : Nat), s.inv → s.regs.lastKind = .none → runOps (List.replicate n .tick) s = .next s

/-- A block and a tick in one clock period (R207, R241): the block first, so the tick is counted on the fresh
timer and the response it supersedes is not sent again, though one tick earlier it would have been. -/
def Obligations.SupersededResponseIsNotResent : Prop :=
  ∀ (s : State) (blk : Half) (payload bytes : List Byte) (w : Carry) (i : Instr), isData i blk payload →
    s.cfg.ok → s.inOrderFor blk payload → decodePayload s.regs.carry payload = some (bytes, w) →
    s.cfg.finalThreshold ≤ bytes.length →
    ∃ t, runOps [i, .tick] s = .next t ∧
      t.effects = s.effects ++ [.sinkAppend bytes, .tx (ackBytes blk)] ∧
      t.regs.timerArmed = true ∧ t.regs.timerCount = s.cfg.ackTicks - 1

/-- The machine cannot tell a clean payload from one with at most one flip, not of position 31, in each codeword
(R128 (a), (b), `40_codec.md` R129): receiving the two as DATA, in either form, leaves the same state, and so does
RSM.PAYLOAD issued on them (log 2). -/
def Obligations.CorrectedPayloadsAreIndistinguishable : Prop :=
  ∀ (s : State) (clean got : List Byte), clean.length = got.length →
    (∀ n, n < (codewords clean).length →
      atMostOneFlip ((codewords clean).getD n 0) ((codewords got).getD n 0)) →
    (∀ (blk : Half) (i j : Instr), isData i blk got → isData j blk clean → exec i s = exec j s) ∧
    exec (.rsmPayload got) s = exec (.rsmPayload clean) s

/-- A codeword with two flips anywhere in an in-order payload makes the machine answer NACK: nothing reaches the
sink, and the carry and `expected` stay (R128 (d), R169). -/
def Obligations.DoubleFlipsNeverReachTheSink : Prop :=
  ∀ (s : State) (blk : Half) (payload : List Byte) (i : Instr) (cw : Codeword) (p q : Nat), isData i blk payload →
    s.inOrderFor blk payload → validCodeword cw → p < q → q ≤ 31 →
    cw ^^^ BitVec.twoPow 32 p ^^^ BitVec.twoPow 32 q ∈ codewords payload →
    ∃ t, exec i s = .next t ∧ t.effects = s.effects ++ [.tx (nackBytes blk)] ∧
      t.sink = s.sink ∧ t.regs.carry = s.regs.carry ∧ t.regs.expected = s.regs.expected ∧
      t.regs.state = .awaiting

/-- The stream view (R149): along any run without RESET that ends in AWAITING, the bytes appended to the sink and
the carry that is left are the carry at the start and the group bits of the accepted blocks, in order. The carry
never changes which bit lands where. -/
def Obligations.SinkIsTheStreamOfAcceptedGroups : Prop :=
  ∀ (ops : List Instr) (s t : State), .reset ∉ ops → runOps ops s = .next t → t.regs.state = .awaiting →
    bitsOf t.sink ++ t.regs.carry.bits = bitsOf s.sink ++ s.regs.carry.bits ++ acceptedBits ops s

/-- The status items and `em` are written and never read (`10_state.md` R25, R28): two states that differ in them
alone emit the same effects and agree on every other register after any operation. -/
def Obligations.StatusItemsAreNeverRead : Prop :=
  ∀ (i : Instr) (s t t' : State) (em : Bool) (fc : FailCause) (ec : Half) (sf : Bool),
    exec i s = .next t →
    exec i { s with regs := { s.regs with em := em, failCause := fc, errCode := ec, sinkFault := sf } } = .next t' →
      t'.effects = t.effects ∧ t'.result = t.result ∧ t'.flags = t.flags ∧
      { t'.regs with em := false, failCause := .none, errCode := 0, sinkFault := false } =
        { t.regs with em := false, failCause := .none, errCode := 0, sinkFault := false }

/-- The host's verdict (R28), the codes of the status registers (R21, R27, R28), and the signals `carry_len` and
`carry_bits` (R24). -/
def Obligations.VerdictAndStatusCodes : Prop :=
  (∀ s : State, s.success = true ↔ s.regs.state = .done ∧ s.regs.sinkFault = false) ∧
  TransferState.idle.code = 0 ∧ TransferState.requesting.code = 1 ∧ TransferState.awaiting.code = 2 ∧
  TransferState.acking.code = 3 ∧ TransferState.nacking.code = 4 ∧ TransferState.done.code = 5 ∧
  TransferState.failed.code = 6 ∧ LastKind.none.code = 0 ∧ LastKind.ack.code = 1 ∧ LastKind.nack.code = 2 ∧
  FailCause.none.code = 0 ∧ FailCause.protocol.code = 1 ∧ FailCause.sink.code = 2 ∧
  ∀ c : Carry, (c.len = 0 ∨ c.len = 2 ∨ c.len = 4 ∨ c.len = 6) ∧
    ∀ j, j < 6 → c.signal.getLsbD j = c.bits.getD j false
end

