-- ==== Sys2Proof/Laws/Bits.lean ====
section
/-! SUPPORT. Bit sequences, bytes and words: reading a bit back, both ways between a word and its bits, the
16-bit fields, the carry as a sequence, and the buffers. -/

namespace Sys2Proof.Laws

/-- A digit of the number a bit sequence stands for is that element of the sequence. -/
theorem testBit_bitsToNat (l : List Bool) (i : Nat) : (bitsToNat l).testBit i = l.getD i false := by
  induction l generalizing i with
  | nil => simp [bitsToNat]
  | cons b bs ih =>
    cases i with
    | zero => cases b <;> simp [bitsToNat, Nat.testBit_zero, Nat.add_mod]
    | succ i =>
      have half : (b.toNat + 2 * bitsToNat bs) / 2 = bitsToNat bs := by
        cases b
        · simp
        · simp; omega
      rw [bitsToNat, Nat.testBit_succ, half, ih]
      rfl

theorem getLsbD_ofBits (n : Nat) (l : List Bool) (i : Nat) :
    (ofBits n l).getLsbD i = (decide (i < n) && l.getD i false) := by
  simp only [ofBits, BitVec.getLsbD_ofNat, testBit_bitsToNat]

@[simp] theorem length_toBits {n : Nat} (x : BitVec n) : (toBits x).length = n := by
  simp [toBits]

theorem getD_toBits {n : Nat} (x : BitVec n) (i : Nat) : (toBits x).getD i false = x.getLsbD i := by
  by_cases h : i < n
  · simp [toBits, h]
  · simp [toBits, List.getD, h, BitVec.getLsbD_of_ge x i (by omega)]

/-- Reading a sequence of the right length back from its word. -/
theorem toBits_ofBits {n : Nat} (l : List Bool) (h : l.length = n) : toBits (ofBits n l) = l := by
  apply List.ext_getElem
  · simp [h]
  · intro i hi hi'
    have hn : i < n := by simpa using hi
    have hg : (ofBits n l).getLsbD i = l[i] := by
      rw [getLsbD_ofBits]
      simp [hn, List.getD, hi']
    simpa [toBits] using hg

@[simp] theorem ofBits_toBits {n : Nat} (x : BitVec n) : ofBits n (toBits x) = x := by
  apply BitVec.eq_of_getLsbD_eq
  intro i hi
  rw [getLsbD_ofBits, getD_toBits]
  simp [hi]

theorem toBits_injective {n : Nat} {x y : BitVec n} (h : toBits x = toBits y) : x = y := by
  rw [← ofBits_toBits x, h, ofBits_toBits]

/-- The number of a 16-bit field, its first byte the more significant (`20_memory.md` R51). -/
theorem toNat_be16 (hi lo : Byte) : (be16 hi lo).toNat = hi.toNat * 256 + lo.toNat := by
  have h := hi.isLt
  have l := lo.isLt
  simp only [be16, BitVec.toNat_ofNat]
  omega

theorem toNat_hiByte (x : Half) : (hiByte x).toNat = x.toNat / 256 := by
  have h := x.isLt
  simp only [hiByte, BitVec.toNat_ofNat]
  omega

theorem toNat_loByte (x : Half) : (loByte x).toNat = x.toNat % 256 := by
  simp only [loByte, BitVec.toNat_ofNat]
  omega

@[simp] theorem be16_hiByte_loByte (x : Half) : be16 (hiByte x) (loByte x) = x := by
  apply BitVec.eq_of_toNat_eq
  rw [toNat_be16, toNat_hiByte, toNat_loByte]
  omega

@[simp] theorem hiByte_be16 (hi lo : Byte) : hiByte (be16 hi lo) = hi := by
  apply BitVec.eq_of_toNat_eq
  have := lo.isLt
  rw [toNat_hiByte, toNat_be16]
  omega

@[simp] theorem loByte_be16 (hi lo : Byte) : loByte (be16 hi lo) = lo := by
  apply BitVec.eq_of_toNat_eq
  have := lo.isLt
  rw [toNat_loByte, toNat_be16]
  omega

/-- The next in-order block number is the sum modulo 65536 (`42_transfer_fsm.md` R165). -/
theorem eq_nextBlk_iff (blk expected : Half) :
    blk = nextBlk expected ↔ blk.toNat = (expected.toNat + 1) % 65536 := by
  rw [← BitVec.toNat_inj]
  simp [nextBlk, BitVec.toNat_add]

@[simp] theorem bits_c0 : Carry.c0.bits = [] := rfl

@[simp] theorem carryOfBits_bits (c : Carry) : carryOfBits c.bits = some c := by
  cases c <;> rfl

/-- A carry read from a sequence holds that sequence. -/
theorem bits_of_carryOfBits {l : List Bool} {c : Carry} (h : carryOfBits l = some c) : c.bits = l := by
  unfold carryOfBits at h
  split at h <;> first | (cases h; rfl) | exact absurd h (by simp)

/-- The four lengths a carry can have are the lengths that can be read (`10_state.md` R24). -/
theorem carryOfBits_of_length {l : List Bool}
    (h : l.length = 0 ∨ l.length = 2 ∨ l.length = 4 ∨ l.length = 6) : ∃ c, carryOfBits l = some c := by
  match l, h with
  | [], _ => exact ⟨_, rfl⟩
  | [_, _], _ => exact ⟨_, rfl⟩
  | [_, _, _, _], _ => exact ⟨_, rfl⟩
  | [_, _, _, _, _, _], _ => exact ⟨_, rfl⟩
  | [_], h => simp at h
  | [_, _, _], h => simp at h
  | [_, _, _, _, _], h => simp at h
  | _ :: _ :: _ :: _ :: _ :: _ :: _ :: _, h => simp at h

theorem carry_bits_injective {c d : Carry} (h : c.bits = d.bits) : c = d := by
  have := congrArg carryOfBits h
  simpa using this

/-- The length of a carry (`41_reassembler.md` R146). -/
theorem carry_len_legal (c : Carry) : c.len = 0 ∨ c.len = 2 ∨ c.len = 4 ∨ c.len = 6 := by
  cases c <;> simp [Carry.len, Carry.bits]

/-- A write at the end of a buffer appends (`41_reassembler.md` R144). -/
@[simp] theorem memWrite_end (buf v : List Byte) : memWrite buf buf.length v = buf ++ v := by
  simp [memWrite]

/-- What is left after the trailing zero bytes are gone (`42_transfer_fsm.md` R181). -/
theorem stripZeros_append_zero (bytes : List Byte) : stripZeros (bytes ++ [0#8]) = stripZeros bytes := by
  simp [stripZeros]

theorem stripZeros_append_nonzero (bytes : List Byte) (b : Byte) (h : b ≠ 0#8) :
    stripZeros (bytes ++ [b]) = bytes ++ [b] := by
  have hz : (b == 0#8) = false := by simpa using h
  simp only [stripZeros, List.reverse_append, List.reverse_cons, List.reverse_nil, List.nil_append,
    List.singleton_append, List.dropWhile_cons, hz, Bool.false_eq_true, if_false, List.reverse_reverse]

@[simp] theorem bitsOf_nil : bitsOf [] = [] := rfl

@[simp] theorem bitsOf_cons (b : Byte) (bs : List Byte) : bitsOf (b :: bs) = toBits b ++ bitsOf bs := rfl

@[simp] theorem bitsOf_append (a b : List Byte) : bitsOf (a ++ b) = bitsOf a ++ bitsOf b := by
  simp [bitsOf]

@[simp] theorem length_bitsOf (bytes : List Byte) : (bitsOf bytes).length = 8 * bytes.length := by
  induction bytes with
  | nil => rfl
  | cons b bs ih => simp [ih]; omega

end Sys2Proof.Laws
end

