-- ==== Sys2Proof/Laws/Datapath.lean ====
section
/-! SUPPORT. The datapath: parity, the inverted position, packing, one step of the reassembler, and the loop of
a payload decode. -/

namespace Sys2Proof.Laws

@[simp] theorem parity_nil : parity [] = false := rfl

@[simp] theorem parity_cons (b : Bool) (l : List Bool) : parity (b :: l) = Bool.xor b (parity l) := rfl

/-- The parity is odd exactly when the count of set bits is odd (`00_scope.md` R13). -/
theorem parity_eq_count (l : List Bool) : parity l = decide (l.count true % 2 = 1) := by
  induction l with
  | nil => rfl
  | cons b l ih =>
    rw [parity_cons, ih]
    cases b
    · simp
    · rcases Nat.mod_two_eq_zero_or_one (l.count true) with h | h <;> simp [h] <;> omega

/-- The parity of position-wise exclusive-ors is the exclusive-or of the parities. -/
theorem parity_map_xor {α : Type} (f g : α → Bool) (l : List α) :
    parity (l.map (fun x => Bool.xor (f x) (g x))) = Bool.xor (parity (l.map f)) (parity (l.map g)) := by
  induction l with
  | nil => rfl
  | cons x l ih =>
    simp only [List.map_cons, parity_cons, ih]
    cases f x <;> cases g x <;> simp

/-- Position `j` of the codeword with position `i` inverted (`40_codec.md` R122). -/
theorem getLsbD_flipBit (cw : Codeword) (i j : Nat) (hj : j < 32) :
    (flipBit cw i).getLsbD j = if j = i then !cw.getLsbD j else cw.getLsbD j := by
  simp only [flipBit, BitVec.getLsbD_xor, BitVec.getLsbD_twoPow]
  by_cases h : j = i
  · subst h; simp [hj]
  · have : ¬ i = j := fun e => h e.symm
    simp [h, this]

theorem classParity_xor (k : Nat) (a b : Codeword) :
    classParity k (a ^^^ b) = Bool.xor (classParity k a) (classParity k b) := by
  rw [classParity, classParity, classParity, ← parity_map_xor]
  exact congrArg parity (List.map_congr_left fun i _ => BitVec.getLsbD_xor)

theorem overallParity_xor (a b : Codeword) :
    overallParity (a ^^^ b) = Bool.xor (overallParity a) (overallParity b) := by
  simp only [overallParity, toBits]
  rw [← parity_map_xor]
  exact congrArg parity (List.map_congr_left fun i _ => BitVec.getLsbD_xor)

theorem length_packCount (n : Nat) (bits : List Bool) : (packCount n bits).length = n := by
  induction n generalizing bits with
  | zero => rfl
  | succ n ih => simp [packCount, ih]

@[simp] theorem length_packBytes (bits : List Bool) : (packBytes bits).length = bits.length / 8 :=
  length_packCount _ _

theorem bitsOf_packCount (n : Nat) (bits : List Bool) (h : bits.length = 8 * n) :
    bitsOf (packCount n bits) = bits := by
  induction n generalizing bits with
  | zero => simp [packCount, List.length_eq_zero_iff.mp (by simpa using h)]
  | succ n ih =>
    rw [packCount, bitsOf_cons, toBits_ofBits _ (by simp; omega), ih _ (by simp; omega), List.take_append_drop]

/-- Packing loses no bit and keeps the order (`41_reassembler.md` R143). -/
theorem bitsOf_packBytes (bits : List Bool) (h : bits.length % 8 = 0) : bitsOf (packBytes bits) = bits :=
  bitsOf_packCount _ _ (by omega)

theorem bytes_of_bits_injective {a b : List Byte} (h : bitsOf a = bitsOf b) : a = b := by
  induction a generalizing b with
  | nil =>
    cases b with
    | nil => rfl
    | cons x xs => exact absurd (congrArg List.length h) (by simp; omega)
  | cons x xs ih =>
    cases b with
    | nil => exact absurd (congrArg List.length h) (by simp)
    | cons y ys =>
      rw [bitsOf_cons, bitsOf_cons] at h
      have hd := List.append_inj h (by simp)
      rw [toBits_injective hd.1, ih hd.2]

/-- One group: the bytes out and the next carry are the old carry and the group, in order (`41_reassembler.md`
R144). -/
theorem rsmStep_bits (w : Carry) (g : Group) :
    bitsOf (rsmStep w g).1 ++ (rsmStep w g).2.bits = w.bits ++ toBits g := by
  unfold rsmStep
  have hb : (w.bits ++ toBits g).length = w.len + 26 := by simp [Carry.len]
  by_cases h : w.len = 6
  · have h32 : (w.bits ++ toBits g).length = 32 := by omega
    simp only [h32, if_true, bits_c0, List.append_nil]
    rw [List.take_of_length_le (by omega), bitsOf_packBytes _ (by omega)]
  · have hne : (w.bits ++ toBits g).length ≠ 32 := by omega
    have hl := carry_len_legal w
    simp only [hne, if_false]
    obtain ⟨c, hc⟩ := carryOfBits_of_length (l := (w.bits ++ toBits g).drop 24) (by
      rw [List.length_drop]; omega)
    rw [hc, Option.getD_some, bits_of_carryOfBits hc, bitsOf_packBytes _ (by rw [List.length_take]; omega),
      List.take_append_drop]

/-- 4 bytes behind a carry of 6 bits, else 3 (R144). -/
theorem rsmStep_length (w : Carry) (g : Group) : (rsmStep w g).1.length = if w.len = 6 then 4 else 3 := by
  unfold rsmStep
  have hb : (w.bits ++ toBits g).length = w.len + 26 := by simp [Carry.len]
  by_cases h : w.len = 6
  · have h32 : (w.bits ++ toBits g).length = 32 := by omega
    simp [h32, h]
  · have hne : (w.bits ++ toBits g).length ≠ 32 := by omega
    have hl := carry_len_legal w
    simp only [hne, if_false, h, length_packBytes, List.length_take]
    omega

/-- The carry lengths cycle 0, 2, 4, 6 (`41_reassembler.md` R146). -/
theorem rsmStep_carry_len (w : Carry) (g : Group) : (rsmStep w g).2.len = (w.len + 2) % 8 := by
  have h := congrArg List.length (rsmStep_bits w g)
  have hl := carry_len_legal w
  simp only [List.length_append, length_bitsOf, rsmStep_length, length_toBits] at h
  unfold Carry.len at *
  split at h <;> omega

/-- The loop of a payload decode fails exactly when one of the codewords is Uncorrectable (R145). -/
theorem decodeLoop_eq_none_iff (k : Work) (cws : List Codeword) :
    decodeLoop k cws = none ↔ ∃ cw ∈ cws, ∃ syn, decodeCodeword cw = .uncorrectable syn := by
  induction cws generalizing k with
  | nil => simp [decodeLoop]
  | cons cw rest ih =>
    unfold decodeLoop
    cases h : decodeCodeword cw with
    | uncorrectable syn => simp [h]
    | ok g => simp [h, ih]

/-- A loop that succeeds has moved the staged bytes and the carry along the stream of group bits, and has counted
the codewords (`10_state.md` R22, `41_reassembler.md` R145, R149). -/
theorem decodeLoop_stream (k k' : Work) (cws : List Codeword) (h : decodeLoop k cws = some k') :
    bitsOf k'.stg ++ k'.wCarry.bits = bitsOf k.stg ++ (k.wCarry.bits ++ groupBits cws) ∧
      k'.cwi = k.cwi + cws.length := by
  induction cws generalizing k with
  | nil => cases h; simp [groupBits]
  | cons cw rest ih =>
    unfold decodeLoop at h
    cases hd : decodeCodeword cw with
    | uncorrectable syn => simp [hd] at h
    | ok g =>
      simp only [hd] at h
      have := ih _ h
      simp only [acceptGroup, memWrite_end, bitsOf_append] at this
      refine ⟨?_, by simp [this.2]; omega⟩
      rw [this.1, List.append_assoc, ← List.append_assoc _ _ (groupBits rest), rsmStep_bits]
      simp [groupBits, hd]

theorem length_groupBits {k k' : Work} {cws : List Codeword} (h : decodeLoop k cws = some k') :
    (groupBits cws).length = 26 * cws.length := by
  induction cws generalizing k with
  | nil => rfl
  | cons cw rest ih =>
    unfold decodeLoop at h
    cases hd : decodeCodeword cw with
    | uncorrectable syn => simp [hd] at h
    | ok g =>
      simp only [hd] at h
      simp [groupBits, hd, ih h]
      omega

/-- A payload that decodes: its bytes and the carry to commit, on the stream of bits (`41_reassembler.md` R149). -/
theorem decodePayload_stream {c w : Carry} {payload bytes : List Byte}
    (h : decodePayload c payload = some (bytes, w)) :
    bitsOf bytes ++ w.bits = c.bits ++ groupBits (codewords payload) := by
  unfold decodePayload at h
  cases hl : decodeLoop { cwi := 0, wCarry := c, stg := [] } (codewords payload) with
  | none => simp [hl] at h
  | some k =>
    simp only [hl, Option.map_some, Option.some.injEq, Prod.mk.injEq] at h
    obtain ⟨rfl, rfl⟩ := h
    simpa using (decodeLoop_stream _ _ _ hl).1

/-- A payload fails exactly when one of its codewords is Uncorrectable (R145). -/
theorem decodePayload_eq_none_iff (c : Carry) (payload : List Byte) :
    decodePayload c payload = none ↔ ∃ cw ∈ codewords payload, ∃ syn, decodeCodeword cw = .uncorrectable syn := by
  simp [decodePayload, decodeLoop_eq_none_iff]

theorem length_codewords (payload : List Byte) : (codewords payload).length = payload.length / 4 := by
  fun_induction codewords payload with
  | case1 b0 b1 b2 b3 rest ih => simp [ih]; omega
  | case2 payload h =>
    match payload, h with
    | [], _ => rfl
    | [_], _ => simp
    | [_, _], _ => simp
    | [_, _, _], _ => simp
    | b0 :: b1 :: b2 :: b3 :: rest, h => exact absurd rfl (h b0 b1 b2 b3 rest)

end Sys2Proof.Laws
end

