-- ==== Sys2Proof/Laws/Codec.lean ====
section
/-! SUPPORT. The codec bit by bit: each answer as a condition on the positions of its codeword, and the syndrome
and the parity as linear functions. -/

namespace Sys2Proof.Laws

theorem parity_map_eq_countP {α : Type} (f : α → Bool) (l : List α) :
    parity (l.map f) = decide (l.countP f % 2 = 1) := by
  rw [parity_eq_count, List.count, List.countP_map]
  simp [Function.comp_def]

/-! ### The syndrome -/

/-- Five bits with their weights, read back. -/
theorem getLsbD_weights : ∀ a b c d e : Bool, ∀ j, j < 5 →
    (BitVec.ofNat 5 (1 * a.toNat + 2 * b.toNat + 4 * c.toNat + 8 * d.toNat + 16 * e.toNat)).getLsbD j =
      [a, b, c, d, e].getD j false := by
  decide

/-- Bit `j` of the syndrome is the parity of class `2^j` (`10_state.md` R30 (a)). -/
theorem getLsbD_syndrome (cw : Codeword) {j : Nat} (hj : j < 5) :
    (syndrome cw).getLsbD j = classParity (2 ^ j) cw := by
  unfold syndrome
  rw [getLsbD_weights _ _ _ _ _ j hj]
  match j, hj with
  | 0, _ => rfl
  | 1, _ => rfl
  | 2, _ => rfl
  | 3, _ => rfl
  | 4, _ => rfl

/-- The syndrome is linear (`40_codec.md` R121, derived there). -/
theorem syndrome_xor (a b : Codeword) : syndrome (a ^^^ b) = syndrome a ^^^ syndrome b := by
  apply BitVec.eq_of_getLsbD_eq
  intro j hj
  rw [BitVec.getLsbD_xor, getLsbD_syndrome _ hj, getLsbD_syndrome _ hj, getLsbD_syndrome _ hj, classParity_xor]

/-- The single bit `p` gives syndrome `p + 1` (R121). -/
theorem syndrome_twoPow : ∀ p, p < 31 → syndrome (BitVec.twoPow 32 p) = BitVec.ofNat 5 (p + 1) := by
  decide +kernel

theorem syndrome_twoPow_31 : syndrome (BitVec.twoPow 32 31) = 0#5 := by decide +kernel

theorem overallParity_twoPow : ∀ p, p < 32 → overallParity (BitVec.twoPow 32 p) = true := by decide +kernel

/-! ### Correction and extraction -/

/-- One bit is flipped exactly when the syndrome is not 0 (`40_codec.md` R123, derived there). -/
theorem overallParity_correct (cw : Codeword) :
    overallParity (correct cw (syndrome cw)) =
      if syndrome cw = 0#5 then overallParity cw else !overallParity cw := by
  unfold correct
  by_cases h : syndrome cw = 0#5
  · rw [if_pos h, if_pos h]
  · have hlt := (syndrome cw).isLt
    rw [if_neg h, if_neg h, flipBit, overallParity_xor, overallParity_twoPow _ (by omega)]
    simp

/-- Element `m` of the group is the data position `25 - m` (R124). -/
theorem getLsbD_extract (cw : Codeword) {m : Nat} (hm : m < 26) :
    (extract cw).getLsbD m = cw.getLsbD (dataPos.getD (25 - m) 0) := by
  unfold extract
  have hl : m < (dataPos.reverse.map cw.getLsbD).length := hm
  rw [getLsbD_ofBits]
  simp only [hm, decide_true, Bool.true_and]
  rw [List.getD_eq_getElem _ _ hl, List.getElem_map, List.getElem_reverse,
    List.getD_eq_getElem _ _ (by show 25 - m < 26; omega)]
  rfl

end Sys2Proof.Laws
end

