-- ==== Sys2Proof/Laws/Decode.lean ====
section
/-! SUPPORT. What the parts of the decoder answer: the strings of a request, the check of a payload, the class of
a received datagram. -/

namespace Sys2Proof.Laws

/-- An answer of a mapped decoder comes from an answer of the decoder. -/
theorem map_ok {ε α β : Type} {f : α → β} {x : Except ε α} {b : β} (h : x.map f = .ok b) :
    ∃ a, x = .ok a ∧ f a = b := by
  cases x with
  | error e => cases h
  | ok a => cases h; exact ⟨a, rfl, rfl⟩

/-! ### Payloads -/

theorem payloadOk_iff (payload : List Byte) :
    payloadOk payload = true ↔ payload.length ≤ 512 ∧ payload.length % 4 = 0 := by
  rw [payloadOk, Bool.and_eq_true, decide_eq_true_iff, decide_eq_true_iff]
  rfl

theorem checkPayload_of_ok {payload : List Byte} (h : payloadOk payload = true) :
    checkPayload payload = .ok payload := by
  have h' := (payloadOk_iff payload).1 h
  unfold checkPayload maxPayload
  rw [if_neg (by omega), if_neg (by omega)]

theorem payloadOk_of_checkPayload {payload got : List Byte} (h : checkPayload payload = .ok got) :
    payloadOk got = true := by
  unfold checkPayload at h
  split at h
  · cases h
  · split at h
    · cases h
    · cases h
      rw [payloadOk_iff]
      simp [maxPayload] at *
      omega

/-! ### The strings of a request -/

/-- The split takes a string off at the zero byte that ends it. -/
theorem splitAtZero_append {str : List Byte} (h : noZeroByte str = true) (rest : List Byte) :
    splitAtZero (str ++ [0#8] ++ rest) = some (str, rest) := by
  induction str with
  | nil => rfl
  | cons b str ih =>
    simp only [noZeroByte, List.all_cons, Bool.and_eq_true] at h
    have hb : b ≠ 0#8 := by simpa using h.1
    show splitAtZero (b :: (str ++ [0#8] ++ rest)) = _
    rw [splitAtZero, if_neg hb, ih h.2]
    rfl

theorem noZeroByte_of_splitAtZero {bytes str rest : List Byte} (h : splitAtZero bytes = some (str, rest)) :
    noZeroByte str = true := by
  induction bytes generalizing str rest with
  | nil => simp [splitAtZero] at h
  | cons b bytes ih =>
    unfold splitAtZero at h
    split at h
    · cases h; rfl
    · rename_i hb
      cases hs : splitAtZero bytes with
      | none => simp [hs] at h
      | some p =>
        simp [hs] at h
        rw [← h.1]
        simp only [noZeroByte, List.all_cons, Bool.and_eq_true]
        exact ⟨by simpa using hb, ih (str := p.1) (rest := p.2) hs⟩

theorem requestStrings_append {fname mode : List Byte} (hf : noZeroByte fname = true) (hm : noZeroByte mode = true) :
    requestStrings (fname ++ [0#8] ++ mode ++ [0#8]) = .ok (fname, mode) := by
  have h2 := splitAtZero_append hm []
  rw [List.append_nil] at h2
  unfold requestStrings
  rw [List.append_assoc _ mode, splitAtZero_append hf]
  simp only [h2]

theorem noZeroByte_of_requestStrings {bytes fname mode : List Byte} (h : requestStrings bytes = .ok (fname, mode)) :
    noZeroByte fname = true ∧ noZeroByte mode = true := by
  unfold requestStrings at h
  split at h
  · cases h
  · rename_i h1
    split at h
    · rename_i h2
      cases h
      exact ⟨noZeroByte_of_splitAtZero h1, noZeroByte_of_splitAtZero h2⟩
    · cases h

/-! ### The class of a received datagram -/

/-- A datagram classed DATA is the header of R86 and its payload. -/
theorem rxClass_data {rxb payload : List Byte} {blk : Half} (h : rxClass rxb = .data blk payload) :
    ∃ hi lo : Byte, hi.toNat * 256 + lo.toNat = blk.toNat ∧ rxb = [0x00#8, 0x03#8, hi, lo] ++ payload := by
  unfold rxClass at h
  split at h
  · rename_i o1 o0 f1 f0 rest
    split at h
    · rename_i h3
      cases h
      refine ⟨f1, f0, (toNat_be16 _ _).symm, ?_⟩
      have e1 := congrArg hiByte h3
      have e2 := congrArg loByte h3
      rw [hiByte_be16] at e1
      rw [loByte_be16] at e2
      subst e1 e2
      rfl
    · split at h <;> cases h
  · cases h

/-- A datagram classed ERROR is the header of R88 and its message. -/
theorem rxClass_error {rxb msg : List Byte} {code : Half} (h : rxClass rxb = .error code msg) :
    ∃ hi lo : Byte, hi.toNat * 256 + lo.toNat = code.toNat ∧ rxb = [0x00#8, 0x05#8, hi, lo] ++ msg := by
  unfold rxClass at h
  split at h
  · rename_i o1 o0 f1 f0 rest
    split at h
    · cases h
    · split at h
      · rename_i h5
        cases h
        refine ⟨f1, f0, (toNat_be16 _ _).symm, ?_⟩
        have e1 := congrArg hiByte h5
        have e2 := congrArg loByte h5
        rw [hiByte_be16] at e1
        rw [loByte_be16] at e2
        subst e1 e2
        rfl
      · cases h
  · cases h

/-- The header of R86 is classed DATA. -/
theorem rxClass_of_data {hi lo : Byte} {blk : Half} (h : hi.toNat * 256 + lo.toNat = blk.toNat)
    (payload : List Byte) : rxClass ([0x00#8, 0x03#8, hi, lo] ++ payload) = .data blk payload := by
  have hb : be16 hi lo = blk := BitVec.eq_of_toNat_eq (by rw [toNat_be16, h])
  subst hb
  rfl

/-- The header of R88 is classed ERROR. -/
theorem rxClass_of_error {hi lo : Byte} {code : Half} (h : hi.toNat * 256 + lo.toNat = code.toNat)
    (msg : List Byte) : rxClass ([0x00#8, 0x05#8, hi, lo] ++ msg) = .error code msg := by
  have hb : be16 hi lo = code := BitVec.eq_of_toNat_eq (by rw [toNat_be16, h])
  subst hb
  rfl

end Sys2Proof.Laws
end

