-- ==== Sys2Proof/Laws/State.lean ====
section
/-! SUPPORT. Reading a field after an update: one lemma for each field of `Regs` and `State` and each register
write, effect and answer, so that no later proof unfolds a record update. -/

namespace Sys2Proof.Machine

/-! ### `Regs.goto` -/

@[simp] theorem Regs.goto_state (r : Regs) (st : TransferState) : (r.goto st).state = st := rfl
@[simp] theorem Regs.goto_expected (r : Regs) (st : TransferState) : (r.goto st).expected = r.expected := rfl
@[simp] theorem Regs.goto_carry (r : Regs) (st : TransferState) : (r.goto st).carry = r.carry := rfl
@[simp] theorem Regs.goto_em (r : Regs) (st : TransferState) : (r.goto st).em = r.em := rfl
@[simp] theorem Regs.goto_timerArmed (r : Regs) (st : TransferState) : (r.goto st).timerArmed = r.timerArmed := rfl
@[simp] theorem Regs.goto_timerCount (r : Regs) (st : TransferState) : (r.goto st).timerCount = r.timerCount := rfl
@[simp] theorem Regs.goto_lastKind (r : Regs) (st : TransferState) : (r.goto st).lastKind = r.lastKind := rfl
@[simp] theorem Regs.goto_lastBlk (r : Regs) (st : TransferState) : (r.goto st).lastBlk = r.lastBlk := rfl
@[simp] theorem Regs.goto_failCause (r : Regs) (st : TransferState) : (r.goto st).failCause = r.failCause := rfl
@[simp] theorem Regs.goto_errCode (r : Regs) (st : TransferState) : (r.goto st).errCode = r.errCode := rfl
@[simp] theorem Regs.goto_sinkFault (r : Regs) (st : TransferState) : (r.goto st).sinkFault = r.sinkFault := rfl

/-! ### `Regs.setEm` -/

@[simp] theorem Regs.setEm_state (r : Regs) (b : Bool) : (r.setEm b).state = r.state := rfl
@[simp] theorem Regs.setEm_expected (r : Regs) (b : Bool) : (r.setEm b).expected = r.expected := rfl
@[simp] theorem Regs.setEm_carry (r : Regs) (b : Bool) : (r.setEm b).carry = r.carry := rfl
@[simp] theorem Regs.setEm_em (r : Regs) (b : Bool) : (r.setEm b).em = b := rfl
@[simp] theorem Regs.setEm_timerArmed (r : Regs) (b : Bool) : (r.setEm b).timerArmed = r.timerArmed := rfl
@[simp] theorem Regs.setEm_timerCount (r : Regs) (b : Bool) : (r.setEm b).timerCount = r.timerCount := rfl
@[simp] theorem Regs.setEm_lastKind (r : Regs) (b : Bool) : (r.setEm b).lastKind = r.lastKind := rfl
@[simp] theorem Regs.setEm_lastBlk (r : Regs) (b : Bool) : (r.setEm b).lastBlk = r.lastBlk := rfl
@[simp] theorem Regs.setEm_failCause (r : Regs) (b : Bool) : (r.setEm b).failCause = r.failCause := rfl
@[simp] theorem Regs.setEm_errCode (r : Regs) (b : Bool) : (r.setEm b).errCode = r.errCode := rfl
@[simp] theorem Regs.setEm_sinkFault (r : Regs) (b : Bool) : (r.setEm b).sinkFault = r.sinkFault := rfl

/-! ### `Regs.disarm` -/

@[simp] theorem Regs.disarm_state (r : Regs) : r.disarm.state = r.state := rfl
@[simp] theorem Regs.disarm_expected (r : Regs) : r.disarm.expected = r.expected := rfl
@[simp] theorem Regs.disarm_carry (r : Regs) : r.disarm.carry = r.carry := rfl
@[simp] theorem Regs.disarm_em (r : Regs) : r.disarm.em = r.em := rfl
@[simp] theorem Regs.disarm_timerArmed (r : Regs) : r.disarm.timerArmed = false := rfl
@[simp] theorem Regs.disarm_timerCount (r : Regs) : r.disarm.timerCount = 0 := rfl
@[simp] theorem Regs.disarm_lastKind (r : Regs) : r.disarm.lastKind = r.lastKind := rfl
@[simp] theorem Regs.disarm_lastBlk (r : Regs) : r.disarm.lastBlk = r.lastBlk := rfl
@[simp] theorem Regs.disarm_failCause (r : Regs) : r.disarm.failCause = r.failCause := rfl
@[simp] theorem Regs.disarm_errCode (r : Regs) : r.disarm.errCode = r.errCode := rfl
@[simp] theorem Regs.disarm_sinkFault (r : Regs) : r.disarm.sinkFault = r.sinkFault := rfl

/-! ### `Regs.arm` -/

@[simp] theorem Regs.arm_state (r : Regs) (n : Nat) : (r.arm n).state = r.state := rfl
@[simp] theorem Regs.arm_expected (r : Regs) (n : Nat) : (r.arm n).expected = r.expected := rfl
@[simp] theorem Regs.arm_carry (r : Regs) (n : Nat) : (r.arm n).carry = r.carry := rfl
@[simp] theorem Regs.arm_em (r : Regs) (n : Nat) : (r.arm n).em = r.em := rfl
@[simp] theorem Regs.arm_timerArmed (r : Regs) (n : Nat) : (r.arm n).timerArmed = true := rfl
@[simp] theorem Regs.arm_timerCount (r : Regs) (n : Nat) : (r.arm n).timerCount = n := rfl
@[simp] theorem Regs.arm_lastKind (r : Regs) (n : Nat) : (r.arm n).lastKind = r.lastKind := rfl
@[simp] theorem Regs.arm_lastBlk (r : Regs) (n : Nat) : (r.arm n).lastBlk = r.lastBlk := rfl
@[simp] theorem Regs.arm_failCause (r : Regs) (n : Nat) : (r.arm n).failCause = r.failCause := rfl
@[simp] theorem Regs.arm_errCode (r : Regs) (n : Nat) : (r.arm n).errCode = r.errCode := rfl
@[simp] theorem Regs.arm_sinkFault (r : Regs) (n : Nat) : (r.arm n).sinkFault = r.sinkFault := rfl

/-! ### `Regs.setCount` -/

@[simp] theorem Regs.setCount_state (r : Regs) (n : Nat) : (r.setCount n).state = r.state := rfl
@[simp] theorem Regs.setCount_expected (r : Regs) (n : Nat) : (r.setCount n).expected = r.expected := rfl
@[simp] theorem Regs.setCount_carry (r : Regs) (n : Nat) : (r.setCount n).carry = r.carry := rfl
@[simp] theorem Regs.setCount_em (r : Regs) (n : Nat) : (r.setCount n).em = r.em := rfl
@[simp] theorem Regs.setCount_timerArmed (r : Regs) (n : Nat) : (r.setCount n).timerArmed = r.timerArmed := rfl
@[simp] theorem Regs.setCount_timerCount (r : Regs) (n : Nat) : (r.setCount n).timerCount = n := rfl
@[simp] theorem Regs.setCount_lastKind (r : Regs) (n : Nat) : (r.setCount n).lastKind = r.lastKind := rfl
@[simp] theorem Regs.setCount_lastBlk (r : Regs) (n : Nat) : (r.setCount n).lastBlk = r.lastBlk := rfl
@[simp] theorem Regs.setCount_failCause (r : Regs) (n : Nat) : (r.setCount n).failCause = r.failCause := rfl
@[simp] theorem Regs.setCount_errCode (r : Regs) (n : Nat) : (r.setCount n).errCode = r.errCode := rfl
@[simp] theorem Regs.setCount_sinkFault (r : Regs) (n : Nat) : (r.setCount n).sinkFault = r.sinkFault := rfl

/-! ### `Regs.commit` -/

@[simp] theorem Regs.commit_state (r : Regs) (w : Carry) (blk : Half) : (r.commit w blk).state = r.state := rfl
@[simp] theorem Regs.commit_expected (r : Regs) (w : Carry) (blk : Half) : (r.commit w blk).expected = blk := rfl
@[simp] theorem Regs.commit_carry (r : Regs) (w : Carry) (blk : Half) : (r.commit w blk).carry = w := rfl
@[simp] theorem Regs.commit_em (r : Regs) (w : Carry) (blk : Half) : (r.commit w blk).em = r.em := rfl
@[simp] theorem Regs.commit_timerArmed (r : Regs) (w : Carry) (blk : Half) : (r.commit w blk).timerArmed = r.timerArmed := rfl
@[simp] theorem Regs.commit_timerCount (r : Regs) (w : Carry) (blk : Half) : (r.commit w blk).timerCount = r.timerCount := rfl
@[simp] theorem Regs.commit_lastKind (r : Regs) (w : Carry) (blk : Half) : (r.commit w blk).lastKind = r.lastKind := rfl
@[simp] theorem Regs.commit_lastBlk (r : Regs) (w : Carry) (blk : Half) : (r.commit w blk).lastBlk = r.lastBlk := rfl
@[simp] theorem Regs.commit_failCause (r : Regs) (w : Carry) (blk : Half) : (r.commit w blk).failCause = r.failCause := rfl
@[simp] theorem Regs.commit_errCode (r : Regs) (w : Carry) (blk : Half) : (r.commit w blk).errCode = r.errCode := rfl
@[simp] theorem Regs.commit_sinkFault (r : Regs) (w : Carry) (blk : Half) : (r.commit w blk).sinkFault = r.sinkFault := rfl

/-! ### `Regs.recordLast` -/

@[simp] theorem Regs.recordLast_state (r : Regs) (k : LastKind) (blk : Half) : (r.recordLast k blk).state = r.state := rfl
@[simp] theorem Regs.recordLast_expected (r : Regs) (k : LastKind) (blk : Half) : (r.recordLast k blk).expected = r.expected := rfl
@[simp] theorem Regs.recordLast_carry (r : Regs) (k : LastKind) (blk : Half) : (r.recordLast k blk).carry = r.carry := rfl
@[simp] theorem Regs.recordLast_em (r : Regs) (k : LastKind) (blk : Half) : (r.recordLast k blk).em = r.em := rfl
@[simp] theorem Regs.recordLast_timerArmed (r : Regs) (k : LastKind) (blk : Half) : (r.recordLast k blk).timerArmed = r.timerArmed := rfl
@[simp] theorem Regs.recordLast_timerCount (r : Regs) (k : LastKind) (blk : Half) : (r.recordLast k blk).timerCount = r.timerCount := rfl
@[simp] theorem Regs.recordLast_lastKind (r : Regs) (k : LastKind) (blk : Half) : (r.recordLast k blk).lastKind = k := rfl
@[simp] theorem Regs.recordLast_lastBlk (r : Regs) (k : LastKind) (blk : Half) : (r.recordLast k blk).lastBlk = blk := rfl
@[simp] theorem Regs.recordLast_failCause (r : Regs) (k : LastKind) (blk : Half) : (r.recordLast k blk).failCause = r.failCause := rfl
@[simp] theorem Regs.recordLast_errCode (r : Regs) (k : LastKind) (blk : Half) : (r.recordLast k blk).errCode = r.errCode := rfl
@[simp] theorem Regs.recordLast_sinkFault (r : Regs) (k : LastKind) (blk : Half) : (r.recordLast k blk).sinkFault = r.sinkFault := rfl

/-! ### `Regs.setErrCode` -/

@[simp] theorem Regs.setErrCode_state (r : Regs) (code : Half) : (r.setErrCode code).state = r.state := rfl
@[simp] theorem Regs.setErrCode_expected (r : Regs) (code : Half) : (r.setErrCode code).expected = r.expected := rfl
@[simp] theorem Regs.setErrCode_carry (r : Regs) (code : Half) : (r.setErrCode code).carry = r.carry := rfl
@[simp] theorem Regs.setErrCode_em (r : Regs) (code : Half) : (r.setErrCode code).em = r.em := rfl
@[simp] theorem Regs.setErrCode_timerArmed (r : Regs) (code : Half) : (r.setErrCode code).timerArmed = r.timerArmed := rfl
@[simp] theorem Regs.setErrCode_timerCount (r : Regs) (code : Half) : (r.setErrCode code).timerCount = r.timerCount := rfl
@[simp] theorem Regs.setErrCode_lastKind (r : Regs) (code : Half) : (r.setErrCode code).lastKind = r.lastKind := rfl
@[simp] theorem Regs.setErrCode_lastBlk (r : Regs) (code : Half) : (r.setErrCode code).lastBlk = r.lastBlk := rfl
@[simp] theorem Regs.setErrCode_failCause (r : Regs) (code : Half) : (r.setErrCode code).failCause = r.failCause := rfl
@[simp] theorem Regs.setErrCode_errCode (r : Regs) (code : Half) : (r.setErrCode code).errCode = code := rfl
@[simp] theorem Regs.setErrCode_sinkFault (r : Regs) (code : Half) : (r.setErrCode code).sinkFault = r.sinkFault := rfl

/-! ### `Regs.setSinkFault` -/

@[simp] theorem Regs.setSinkFault_state (r : Regs) : r.setSinkFault.state = r.state := rfl
@[simp] theorem Regs.setSinkFault_expected (r : Regs) : r.setSinkFault.expected = r.expected := rfl
@[simp] theorem Regs.setSinkFault_carry (r : Regs) : r.setSinkFault.carry = r.carry := rfl
@[simp] theorem Regs.setSinkFault_em (r : Regs) : r.setSinkFault.em = r.em := rfl
@[simp] theorem Regs.setSinkFault_timerArmed (r : Regs) : r.setSinkFault.timerArmed = r.timerArmed := rfl
@[simp] theorem Regs.setSinkFault_timerCount (r : Regs) : r.setSinkFault.timerCount = r.timerCount := rfl
@[simp] theorem Regs.setSinkFault_lastKind (r : Regs) : r.setSinkFault.lastKind = r.lastKind := rfl
@[simp] theorem Regs.setSinkFault_lastBlk (r : Regs) : r.setSinkFault.lastBlk = r.lastBlk := rfl
@[simp] theorem Regs.setSinkFault_failCause (r : Regs) : r.setSinkFault.failCause = r.failCause := rfl
@[simp] theorem Regs.setSinkFault_errCode (r : Regs) : r.setSinkFault.errCode = r.errCode := rfl
@[simp] theorem Regs.setSinkFault_sinkFault (r : Regs) : r.setSinkFault.sinkFault = true := rfl

/-! ### `Regs.fail` -/

@[simp] theorem Regs.fail_state (r : Regs) (cause : FailCause) : (r.fail cause).state = .failed := rfl
@[simp] theorem Regs.fail_expected (r : Regs) (cause : FailCause) : (r.fail cause).expected = r.expected := rfl
@[simp] theorem Regs.fail_carry (r : Regs) (cause : FailCause) : (r.fail cause).carry = r.carry := rfl
@[simp] theorem Regs.fail_em (r : Regs) (cause : FailCause) : (r.fail cause).em = r.em := rfl
@[simp] theorem Regs.fail_timerArmed (r : Regs) (cause : FailCause) : (r.fail cause).timerArmed = false := rfl
@[simp] theorem Regs.fail_timerCount (r : Regs) (cause : FailCause) : (r.fail cause).timerCount = 0 := rfl
@[simp] theorem Regs.fail_lastKind (r : Regs) (cause : FailCause) : (r.fail cause).lastKind = r.lastKind := rfl
@[simp] theorem Regs.fail_lastBlk (r : Regs) (cause : FailCause) : (r.fail cause).lastBlk = r.lastBlk := rfl
@[simp] theorem Regs.fail_failCause (r : Regs) (cause : FailCause) : (r.fail cause).failCause = cause := rfl
@[simp] theorem Regs.fail_errCode (r : Regs) (cause : FailCause) : (r.fail cause).errCode = r.errCode := rfl
@[simp] theorem Regs.fail_sinkFault (r : Regs) (cause : FailCause) : (r.fail cause).sinkFault = r.sinkFault := rfl

/-! ### `State.upd` -/

@[simp] theorem State.upd_regs (s : State) (f : Regs → Regs) : (s.upd f).regs = f s.regs := rfl
@[simp] theorem State.upd_cfg (s : State) (f : Regs → Regs) : (s.upd f).cfg = s.cfg := rfl
@[simp] theorem State.upd_pending (s : State) (f : Regs → Regs) : (s.upd f).pending = s.pending := rfl
@[simp] theorem State.upd_effects (s : State) (f : Regs → Regs) : (s.upd f).effects = s.effects := rfl
@[simp] theorem State.upd_flags (s : State) (f : Regs → Regs) : (s.upd f).flags = s.flags := rfl
@[simp] theorem State.upd_result (s : State) (f : Regs → Regs) : (s.upd f).result = s.result := rfl

/-! ### `State.emit` -/

@[simp] theorem State.emit_regs (s : State) (e : Effect) : (s.emit e).regs = s.regs := rfl
@[simp] theorem State.emit_cfg (s : State) (e : Effect) : (s.emit e).cfg = s.cfg := rfl
@[simp] theorem State.emit_pending (s : State) (e : Effect) : (s.emit e).pending = s.pending := rfl
@[simp] theorem State.emit_effects (s : State) (e : Effect) : (s.emit e).effects = s.effects ++ [e] := rfl
@[simp] theorem State.emit_flags (s : State) (e : Effect) : (s.emit e).flags = s.flags := rfl
@[simp] theorem State.emit_result (s : State) (e : Effect) : (s.emit e).result = s.result := rfl

/-! ### `State.answer` -/

@[simp] theorem State.answer_regs (s : State) (fl : Flags) (r : DatapathResult) : (s.answer fl r).regs = s.regs := rfl
@[simp] theorem State.answer_cfg (s : State) (fl : Flags) (r : DatapathResult) : (s.answer fl r).cfg = s.cfg := rfl
@[simp] theorem State.answer_pending (s : State) (fl : Flags) (r : DatapathResult) : (s.answer fl r).pending = s.pending := rfl
@[simp] theorem State.answer_effects (s : State) (fl : Flags) (r : DatapathResult) : (s.answer fl r).effects = s.effects := rfl
@[simp] theorem State.answer_flags (s : State) (fl : Flags) (r : DatapathResult) : (s.answer fl r).flags = fl := rfl
@[simp] theorem State.answer_result (s : State) (fl : Flags) (r : DatapathResult) : (s.answer fl r).result = some r := rfl

/-! ### `State.taking` -/

@[simp] theorem State.taking_regs (s : State) (rest : List Input) : (s.taking rest).regs = s.regs := rfl
@[simp] theorem State.taking_cfg (s : State) (rest : List Input) : (s.taking rest).cfg = s.cfg := rfl
@[simp] theorem State.taking_pending (s : State) (rest : List Input) : (s.taking rest).pending = rest := rfl
@[simp] theorem State.taking_effects (s : State) (rest : List Input) : (s.taking rest).effects = s.effects := rfl
@[simp] theorem State.taking_flags (s : State) (rest : List Input) : (s.taking rest).flags = { } := rfl
@[simp] theorem State.taking_result (s : State) (rest : List Input) : (s.taking rest).result = none := rfl

/-! ### The sink -/

/-- The sink holds what the effects append, in order (`20_memory.md` R61). -/
@[simp] theorem sinkOf_append (a b : List Effect) : sinkOf (a ++ b) = sinkOf a ++ sinkOf b := by
  induction a with
  | nil => rfl
  | cons e a ih => cases e <;> simp [sinkOf, ih]

end Sys2Proof.Machine
end

