-- ==== Sys2Proof/Laws/Ops.lean ====
section
/-! SUPPORT. What each shared operation can do, said once: the registers it leaves, the effects it adds, and the
parts of the state it keeps. Later proofs cite these and leave the operations folded. -/

namespace Sys2Proof.Laws

open Sys2Proof.Machine

/-! ### What no operation of a transfer touches -/

/-- Two states agree on the parameters, on the inputs still to come, and on the answer port. -/
structure SameBoundary (s t : State) : Prop where
  cfg : t.cfg = s.cfg
  pending : t.pending = s.pending
  flags : t.flags = s.flags
  result : t.result = s.result

theorem SameBoundary.refl (s : State) : SameBoundary s s := ⟨rfl, rfl, rfl, rfl⟩

theorem SameBoundary.trans {s t u : State} (h : SameBoundary s t) (k : SameBoundary t u) : SameBoundary s u :=
  ⟨k.cfg.trans h.cfg, k.pending.trans h.pending, k.flags.trans h.flags, k.result.trans h.result⟩

theorem SameBoundary.upd (s : State) (f : Regs → Regs) : SameBoundary s (s.upd f) := ⟨rfl, rfl, rfl, rfl⟩

theorem SameBoundary.emit (s : State) (e : Effect) : SameBoundary s (s.emit e) := ⟨rfl, rfl, rfl, rfl⟩

/-- The next state of an operation that answers nothing, written by the registers and effects alone. -/
theorem state_ext {s t : State} (hb : SameBoundary s t) (hr : t.regs = r) (he : t.effects = s.effects ++ new) :
    t = { s with regs := r, effects := s.effects ++ new } := by
  obtain ⟨h1, h2, h3, h4⟩ := hb
  cases t
  cases s
  simp_all

/-! ### In-order DATA -/

/-- The ACK path (`42_transfer_fsm.md` R167). -/
theorem acceptBlock_eq (blk : Half) (bytes : List Byte) (w : Carry) (s : State) :
    acceptBlock blk bytes w s =
      { s with
        regs := ((((s.regs.commit w blk).recordLast .ack blk).arm s.cfg.ackTicks).goto .awaiting)
        effects := s.effects ++ [.sinkAppend bytes, .tx (ackBytes blk)] } := by
  simp [acceptBlock, sendAck, State.upd, State.emit, Regs.goto, Regs.arm, Regs.recordLast, Regs.commit]

/-- The effects of the final block, by the switch `FINAL_ACK` (R168). -/
def finalEffects (s : State) (blk : Half) (bytes : List Byte) : List Effect :=
  [.sinkAppend (stripZeros bytes)] ++ (if s.cfg.finalAck then [.tx (ackBytes blk)] else []) ++
    [.sinkFlush, .sinkClose, .doneOk]

/-- The final block (R168). -/
theorem finishTransfer_eq (blk : Half) (bytes : List Byte) (w : Carry) (s : State) :
    finishTransfer blk bytes w s =
      { s with
        regs := (s.regs.commit w blk).goto .done
        effects := s.effects ++ finalEffects s blk bytes } := by
  cases h : s.cfg.finalAck <;> simp [finishTransfer, finalAck, finalEffects, sendAck, State.upd, State.emit, h]

/-- The NACK path (R169). -/
theorem rejectBlock_eq (blk : Half) (s : State) :
    rejectBlock blk s =
      { s with
        regs := (((s.regs.recordLast .nack blk).arm s.cfg.nackTicks).goto .awaiting)
        effects := s.effects ++ [.tx (nackBytes blk)] } := by
  simp [rejectBlock, sendNack, State.upd, State.emit, Regs.goto, Regs.arm, Regs.recordLast]

/-- An in-order DATA block does one of three things, whichever way its payload decodes (R166). -/
theorem inOrderData_cases (blk : Half) (payload : List Byte) (s : State) :
    (decodePayload s.regs.carry payload = none ∧
        inOrderData blk payload s = rejectBlock blk (s.upd Regs.disarm)) ∨
      ∃ bytes w, decodePayload s.regs.carry payload = some (bytes, w) ∧
        ((bytes.length < s.cfg.finalThreshold ∧
            inOrderData blk payload s = finishTransfer blk bytes w (s.upd Regs.disarm)) ∨
          (s.cfg.finalThreshold ≤ bytes.length ∧
            inOrderData blk payload s = acceptBlock blk bytes w (s.upd Regs.disarm))) := by
  unfold inOrderData
  cases h : decodePayload s.regs.carry payload with
  | none => exact .inl ⟨rfl, rfl⟩
  | some p =>
    refine .inr ⟨p.1, p.2, rfl, ?_⟩
    by_cases hl : p.1.length < s.cfg.finalThreshold
    · exact .inl ⟨hl, by simp [hl]⟩
    · exact .inr ⟨by omega, by simp [hl]⟩

/-! ### Receiving -/

/-- A received DATA datagram is discarded or is the in-order block (R163, R164, R171, R172). -/
theorem receiveData_cases (blk : Half) (payload : List Byte) (s : State) :
    receiveData blk payload s = s ∨
      (s.regs.state = .awaiting ∧ payloadOk payload = true ∧ blk = nextBlk s.regs.expected ∧
        receiveData blk payload s = inOrderData blk payload s) := by
  unfold receiveData
  by_cases h1 : s.regs.state = .awaiting
  · by_cases h2 : payloadOk payload = true
    · by_cases h3 : blk = nextBlk s.regs.expected
      · exact .inr ⟨h1, h2, h3, by simp [h1, h2, ← h3]⟩
      · exact .inl (by simp [h3])
    · exact .inl (by simp [h2])
  · exact .inl (by simp [h1])

/-- In AWAITING a well-formed datagram with the next number is the in-order block (R164). -/
theorem receiveData_inOrder {blk : Half} {payload : List Byte} {s : State} (h1 : s.regs.state = .awaiting)
    (h2 : payloadOk payload = true) (h3 : blk = nextBlk s.regs.expected) :
    receiveData blk payload s = inOrderData blk payload s := by
  unfold receiveData
  rw [if_neg (fun h => h h1), if_neg (by simp [h2]), if_neg (fun h => h h3)]

/-- The protocol ERROR (R170). -/
theorem protocolError_eq (code : Half) (msg : List Byte) (s : State) :
    protocolError code msg s =
      { s with
        regs := (s.regs.setErrCode code).fail .protocol
        effects := s.effects ++ [.sinkFlush, .sinkClose, .errCb code msg] } := by
  simp [protocolError, State.upd, State.emit]

theorem receiveError_cases (code : Half) (msg : List Byte) (s : State) :
    receiveError code msg s = s ∨
      (s.regs.state = .awaiting ∧ receiveError code msg s = protocolError code msg s) := by
  unfold receiveError
  by_cases h : s.regs.state = .awaiting
  · exact .inr ⟨h, by simp [h]⟩
  · exact .inl (by simp [h])

/-- A received datagram is discarded, or is the DATA or ERROR datagram its bytes say (R162). -/
theorem receive_cases (rxb : List Byte) (s : State) :
    receive rxb s = s ∨
      (∃ blk payload, rxClass rxb = .data blk payload ∧ receive rxb s = receiveData blk payload s) ∨
      (∃ code msg, rxClass rxb = .error code msg ∧ receive rxb s = receiveError code msg s) := by
  unfold receive
  cases h : rxClass rxb with
  | discard => exact .inl rfl
  | data blk payload => exact .inr (.inl ⟨blk, payload, rfl, rfl⟩)
  | error code msg => exact .inr (.inr ⟨code, msg, rfl, rfl⟩)

/-! ### The timer -/

/-- A tick does nothing, counts, or is the expiry (R173, R174). -/
theorem countDown_cases (s : State) :
    (s.regs.timerArmed = false ∧ countDown s = s) ∨
      (s.regs.timerArmed = true ∧ 2 ≤ s.regs.timerCount ∧
        countDown s = s.upd (fun r => r.setCount (r.timerCount - 1))) ∨
      (s.regs.timerArmed = true ∧ s.regs.timerCount ≤ 1 ∧
        countDown s = timerExpiry (s.upd (fun r => r.setCount 0))) := by
  unfold countDown
  cases h : s.regs.timerArmed with
  | false => exact .inl ⟨rfl, by simp⟩
  | true =>
    by_cases hc : s.regs.timerCount - 1 = 0
    · exact .inr (.inr ⟨rfl, by omega, by simp [hc]⟩)
    · exact .inr (.inl ⟨rfl, by omega, by simp [hc]⟩)

/-- What an expiry sends and loads, by the kind of the last response (R174). -/
theorem timerExpiry_cases (s : State) :
    (s.regs.lastKind = .none ∧ timerExpiry s = s) ∨
      (s.regs.lastKind = .ack ∧ timerExpiry s =
        { s with regs := s.regs.setCount s.cfg.ackTicks, effects := s.effects ++ [.tx (ackBytes s.regs.lastBlk)] }) ∨
      (s.regs.lastKind = .nack ∧ timerExpiry s =
        { s with regs := s.regs.setCount s.cfg.nackTicks, effects := s.effects ++ [.tx (nackBytes s.regs.lastBlk)] }) := by
  unfold timerExpiry
  cases h : s.regs.lastKind with
  | none => exact .inl ⟨rfl, rfl⟩
  | ack => exact .inr (.inl ⟨rfl, by simp [sendAck, State.upd, State.emit]⟩)
  | nack => exact .inr (.inr ⟨rfl, by simp [sendNack, State.upd, State.emit]⟩)

/-! ### Start and sink failure -/

theorem startTransfer_cases (em : Bool) (fname mode : List Byte) (s : State) :
    (s.regs.state ≠ .idle ∧ startTransfer em fname mode s = s) ∨
      (s.regs.state = .idle ∧ startTransfer em fname mode s =
        { s with
          regs := (s.regs.setEm em).goto .awaiting
          effects := s.effects ++ [.tx (requestBytes em fname mode)] }) := by
  unfold startTransfer
  by_cases h : s.regs.state = .idle
  · exact .inr ⟨h, by simp [h, sendRequest, State.upd, State.emit, Regs.goto, Regs.setEm]⟩
  · exact .inl ⟨h, by simp [h]⟩

theorem sinkFailure_cases (s : State) :
    (s.regs.state = .idle ∧ sinkFailure s = s) ∨
      (s.regs.state = .awaiting ∧ sinkFailure s = s.upd (fun r => r.setSinkFault.fail .sink)) ∨
      (s.regs.state ≠ .idle ∧ s.regs.state ≠ .awaiting ∧ sinkFailure s = s.upd Regs.setSinkFault) := by
  unfold sinkFailure
  cases h : s.regs.state <;> simp

/-! ### Every operation -/

/-- The boundary of the block is kept by every operation but the datapath's, which write their answer. -/
theorem receiveData_boundary (blk : Half) (payload : List Byte) (s : State) :
    SameBoundary s (receiveData blk payload s) := by
  rcases receiveData_cases blk payload s with h | ⟨-, -, -, h⟩
  · rw [h]; exact .refl s
  · rw [h]
    rcases inOrderData_cases blk payload s with ⟨-, h⟩ | ⟨bytes, w, -, ⟨-, h⟩ | ⟨-, h⟩⟩
    · rw [h, rejectBlock_eq]; exact ⟨rfl, rfl, rfl, rfl⟩
    · rw [h, finishTransfer_eq]; exact ⟨rfl, rfl, rfl, rfl⟩
    · rw [h, acceptBlock_eq]; exact ⟨rfl, rfl, rfl, rfl⟩

theorem receiveError_boundary (code : Half) (msg : List Byte) (s : State) :
    SameBoundary s (receiveError code msg s) := by
  rcases receiveError_cases code msg s with h | ⟨-, h⟩
  · rw [h]; exact .refl s
  · rw [h, protocolError_eq]; exact ⟨rfl, rfl, rfl, rfl⟩

theorem receive_boundary (rxb : List Byte) (s : State) : SameBoundary s (receive rxb s) := by
  rcases receive_cases rxb s with h | ⟨blk, payload, -, h⟩ | ⟨code, msg, -, h⟩
  · rw [h]; exact .refl s
  · rw [h]; exact receiveData_boundary blk payload s
  · rw [h]; exact receiveError_boundary code msg s

theorem timerExpiry_boundary (s : State) : SameBoundary s (timerExpiry s) := by
  rcases timerExpiry_cases s with ⟨-, h⟩ | ⟨-, h⟩ | ⟨-, h⟩ <;> rw [h] <;> exact ⟨rfl, rfl, rfl, rfl⟩

theorem countDown_boundary (s : State) : SameBoundary s (countDown s) := by
  rcases countDown_cases s with ⟨-, h⟩ | ⟨-, -, h⟩ | ⟨-, -, h⟩
  · rw [h]; exact .refl s
  · rw [h]; exact .upd s _
  · rw [h]; exact (SameBoundary.upd s _).trans (timerExpiry_boundary _)

theorem startTransfer_boundary (em : Bool) (fname mode : List Byte) (s : State) :
    SameBoundary s (startTransfer em fname mode s) := by
  rcases startTransfer_cases em fname mode s with ⟨-, h⟩ | ⟨-, h⟩ <;> rw [h] <;> exact ⟨rfl, rfl, rfl, rfl⟩

theorem sinkFailure_boundary (s : State) : SameBoundary s (sinkFailure s) := by
  rcases sinkFailure_cases s with ⟨-, h⟩ | ⟨-, h⟩ | ⟨-, -, h⟩ <;> rw [h] <;> exact ⟨rfl, rfl, rfl, rfl⟩

end Sys2Proof.Laws
end

