-- ==== Sys2Proof/Laws/Exec.lean ====
section
/-! SUPPORT. What one operation can do, said once for all of them: `exec_cases` lists every way an operation can
end, guards included, and the invariants and frames are case analyses over it. Then the two lemmas that take a
run apart. -/

namespace Sys2Proof.Laws

open Sys2Proof.Machine

/-! ### Receiving -/

theorem isData_of_rxClass {rxb payload : List Byte} {blk : Half} (h : rxClass rxb = .data blk payload) :
    isData (.rx rxb) blk payload := by
  obtain ⟨hi, lo, hb, rfl⟩ := rxClass_data h
  exact .inr ⟨hi, lo, hb, rfl⟩

theorem isError_of_rxClass {rxb msg : List Byte} {code : Half} (h : rxClass rxb = .error code msg) :
    isError (.rx rxb) code msg := by
  obtain ⟨hi, lo, hb, rfl⟩ := rxClass_error h
  exact .inr ⟨hi, lo, hb, rfl⟩

/-- Both forms in which a DATA datagram is received have one meaning. -/
theorem exec_isData {i : Instr} {blk : Half} {payload : List Byte} (h : isData i blk payload) (s : State) :
    exec i s = .next (receiveData blk payload s) := by
  rcases h with rfl | ⟨hi, lo, hb, rfl⟩
  · rfl
  · show Host.Outcome.next (receive _ s) = _
    rw [receive, rxClass_of_data hb]

theorem exec_isError {i : Instr} {code : Half} {msg : List Byte} (h : isError i code msg) (s : State) :
    exec i s = .next (receiveError code msg s) := by
  rcases h with rfl | ⟨hi, lo, hb, rfl⟩
  · rfl
  · show Host.Outcome.next (receive _ s) = _
    rw [receive, rxClass_of_error hb]

theorem inOrderFor_iff (s : State) (blk : Half) (payload : List Byte) :
    s.inOrderFor blk payload ↔
      s.regs.state = .awaiting ∧ payloadOk payload = true ∧ blk = nextBlk s.regs.expected := by
  unfold State.inOrderFor
  rw [payloadOk_iff, eq_nextBlk_iff]
  tauto

theorem receiveData_of_inOrderFor {s : State} {blk : Half} {payload : List Byte} (h : s.inOrderFor blk payload) :
    receiveData blk payload s = inOrderData blk payload s := by
  obtain ⟨h1, h2, h3⟩ := (inOrderFor_iff s blk payload).1 h
  exact receiveData_inOrder h1 h2 h3

/-- A received DATA datagram is discarded, rejected, taken as the final block, or accepted. -/
theorem receiveData_inversion (s : State) (blk : Half) (payload : List Byte) :
    (acceptedIn s blk payload = none ∧
        (receiveData blk payload s = s ∨
          (s.inOrderFor blk payload ∧ decodePayload s.regs.carry payload = none ∧
            receiveData blk payload s = rejectBlock blk (s.upd Regs.disarm)))) ∨
      ∃ bytes w, acceptedIn s blk payload = some payload ∧ s.inOrderFor blk payload ∧
        decodePayload s.regs.carry payload = some (bytes, w) ∧
        ((bytes.length < s.cfg.finalThreshold ∧
            receiveData blk payload s = finishTransfer blk bytes w (s.upd Regs.disarm)) ∨
          (s.cfg.finalThreshold ≤ bytes.length ∧
            receiveData blk payload s = acceptBlock blk bytes w (s.upd Regs.disarm))) := by
  by_cases ho : s.inOrderFor blk payload
  · rw [receiveData_of_inOrderFor ho]
    rcases inOrderData_cases blk payload s with ⟨hd, h⟩ | ⟨bytes, w, hd, h⟩
    · exact .inl ⟨by simp [acceptedIn, hd], .inr ⟨ho, hd, h⟩⟩
    · exact .inr ⟨bytes, w, by rw [acceptedIn, if_pos ⟨ho, by simp [hd]⟩], ho, hd, h⟩
  · refine .inl ⟨by rw [acceptedIn, if_neg (fun h => ho h.1)], ?_⟩
    rcases receiveData_cases blk payload s with h | ⟨h1, h2, h3, -⟩
    · exact .inl h
    · exact absurd ((inOrderFor_iff _ _ _).2 ⟨h1, h2, h3⟩) ho

/-! ### Every operation -/

/-- Every way in which an operation ends. -/
inductive ExecCase (i : Instr) (s t : State) : Prop
  /-- Neither registers nor effects change: waiting, ignored events, discarded datagrams, datapath operations. -/
  | same (ha : acceptedPayload i s = none) (hr : t.regs = s.regs) (he : t.effects = s.effects)
  /-- A sent datagram issued alone. -/
  | sent (bytes : List Byte) (ha : acceptedPayload i s = none) (hi : i.isEvent = false) (hr : t.regs = s.regs)
      (he : t.effects = s.effects ++ [.tx bytes])
  | start (em : Bool) (fname mode : List Byte) (hi : i = .start em fname mode) (hs : s.regs.state = .idle)
      (ht : t = { s with
        regs := (s.regs.setEm em).goto .awaiting, effects := s.effects ++ [.tx (requestBytes em fname mode)] })
  | accept (blk : Half) (payload bytes : List Byte) (w : Carry) (hi : isData i blk payload)
      (ha : acceptedPayload i s = some payload) (ho : s.inOrderFor blk payload)
      (hd : decodePayload s.regs.carry payload = some (bytes, w)) (hl : s.cfg.finalThreshold ≤ bytes.length)
      (ht : t = acceptBlock blk bytes w (s.upd Regs.disarm))
  | final (blk : Half) (payload bytes : List Byte) (w : Carry) (hi : isData i blk payload)
      (ha : acceptedPayload i s = some payload) (ho : s.inOrderFor blk payload)
      (hd : decodePayload s.regs.carry payload = some (bytes, w)) (hl : bytes.length < s.cfg.finalThreshold)
      (ht : t = finishTransfer blk bytes w (s.upd Regs.disarm))
  | reject (blk : Half) (payload : List Byte) (hi : isData i blk payload) (ha : acceptedPayload i s = none)
      (ho : s.inOrderFor blk payload) (hd : decodePayload s.regs.carry payload = none)
      (ht : t = rejectBlock blk (s.upd Regs.disarm))
  | error (code : Half) (msg : List Byte) (hi : isError i code msg) (ha : acceptedPayload i s = none)
      (hs : s.regs.state = .awaiting) (ht : t = protocolError code msg s)
  | count (hi : i = .tick) (h : s.regs.timerArmed = true) (hc : 2 ≤ s.regs.timerCount)
      (ht : t = s.upd (fun r => r.setCount (r.timerCount - 1)))
  /-- An armed timer without a last response: no run reaches it (`10_state.md` R33 (b)). -/
  | expireNone (hi : i = .tick) (h : s.regs.timerArmed = true) (hc : s.regs.timerCount ≤ 1)
      (hk : s.regs.lastKind = .none)
      (ht : t = s.upd (fun r => r.setCount 0))
  | expireAck (hi : i = .tick) (h : s.regs.timerArmed = true) (hc : s.regs.timerCount ≤ 1)
      (hk : s.regs.lastKind = .ack)
      (ht : t = { s with
        regs := s.regs.setCount s.cfg.ackTicks, effects := s.effects ++ [.tx (ackBytes s.regs.lastBlk)] })
  | expireNack (hi : i = .tick) (h : s.regs.timerArmed = true) (hc : s.regs.timerCount ≤ 1)
      (hk : s.regs.lastKind = .nack)
      (ht : t = { s with
        regs := s.regs.setCount s.cfg.nackTicks, effects := s.effects ++ [.tx (nackBytes s.regs.lastBlk)] })
  | sinkAwaiting (hi : i = .sinkfail) (hs : s.regs.state = .awaiting)
      (ht : t = s.upd (fun r => r.setSinkFault.fail .sink))
  | sinkLater (hi : i = .sinkfail) (hs : s.regs.state ≠ .idle) (hs' : s.regs.state ≠ .awaiting)
      (ht : t = s.upd Regs.setSinkFault)
  | reset (hi : i = .reset) (ht : t = restart s)

theorem execData_case {i : Instr} {s : State} {blk : Half} {payload : List Byte} (hi : isData i blk payload)
    (ha : acceptedPayload i s = acceptedIn s blk payload) : ExecCase i s (receiveData blk payload s) := by
  rcases receiveData_inversion s blk payload with ⟨h1, h | ⟨ho, hd, h⟩⟩ | ⟨bytes, w, h1, ho, hd, ⟨hl, h⟩ | ⟨hl, h⟩⟩
  · rw [h]; exact .same (ha.trans h1) rfl rfl
  · exact .reject blk payload hi (ha.trans h1) ho hd h
  · exact .final blk payload bytes w hi (ha.trans h1) ho hd hl h
  · exact .accept blk payload bytes w hi (ha.trans h1) ho hd hl h

theorem execError_case {i : Instr} {s : State} {code : Half} {msg : List Byte} (hi : isError i code msg)
    (ha : acceptedPayload i s = none) : ExecCase i s (receiveError code msg s) := by
  rcases receiveError_cases code msg s with h | ⟨hs, h⟩
  · rw [h]; exact .same ha rfl rfl
  · exact .error code msg hi ha hs h

theorem execRx_case (rxb : List Byte) (s : State) : ExecCase (.rx rxb) s (receive rxb s) := by
  unfold receive
  cases hc : rxClass rxb with
  | discard => exact .same (by simp [acceptedPayload, hc]) rfl rfl
  | data blk payload => exact execData_case (isData_of_rxClass hc) (by simp [acceptedPayload, hc])
  | error code msg => exact execError_case (isError_of_rxClass hc) (by simp [acceptedPayload, hc])

theorem execTick_case (s : State) : ExecCase .tick s (countDown s) := by
  rcases countDown_cases s with ⟨-, h⟩ | ⟨ha, hc, h⟩ | ⟨ha, hc, h⟩
  · rw [h]; exact .same rfl rfl rfl
  · exact .count rfl ha hc h
  · rw [h]
    rcases timerExpiry_cases (s.upd (fun r => r.setCount 0)) with ⟨hk, h⟩ | ⟨hk, h⟩ | ⟨hk, h⟩
    · exact .expireNone rfl ha hc hk h
    · exact .expireAck rfl ha hc hk h
    · exact .expireNack rfl ha hc hk h

theorem execStart_case (em : Bool) (fname mode : List Byte) (s : State) :
    ExecCase (.start em fname mode) s (startTransfer em fname mode s) := by
  rcases startTransfer_cases em fname mode s with ⟨-, h⟩ | ⟨hs, h⟩
  · rw [h]; exact .same rfl rfl rfl
  · exact .start em fname mode rfl hs h

theorem execSinkfail_case (s : State) : ExecCase .sinkfail s (sinkFailure s) := by
  rcases sinkFailure_cases s with ⟨-, h⟩ | ⟨hs, h⟩ | ⟨hs, hs', h⟩
  · rw [h]; exact .same rfl rfl rfl
  · exact .sinkAwaiting rfl hs h
  · exact .sinkLater rfl hs hs' h

/-- The inversion of `exec`. -/
theorem exec_cases {i : Instr} {s t : State} (he : exec i s = .next t) : ExecCase i s t := by
  cases i <;> cases he
  case data blk payload => exact execData_case (.inl rfl) rfl
  case error code msg => exact execError_case (.inl rfl) rfl
  case rx rxb => exact execRx_case rxb s
  case tick => exact execTick_case s
  case start em fname mode => exact execStart_case em fname mode s
  case sinkfail => exact execSinkfail_case s
  case reset => exact .reset rfl rfl
  case request => exact .sent _ rfl rfl rfl rfl
  case errreq => exact .sent _ rfl rfl rfl rfl
  case ack => exact .sent _ rfl rfl rfl rfl
  case nack => exact .sent _ rfl rfl rfl rfl
  all_goals exact .same rfl rfl rfl

/-! ### Runs -/

theorem runOps_cons {i : Instr} {rest : List Instr} {s t : State} (h : runOps (i :: rest) s = .next t) :
    ∃ u, exec i s = .next u ∧ runOps rest u = .next t := by
  rw [runOps] at h
  split at h
  · exact ⟨_, ‹_›, h⟩
  · cases h
  · cases h

theorem runOps_append {front : List Instr} {s t : State} (h : runOps front s = .next t) (back : List Instr) :
    runOps (front ++ back) s = runOps back t := by
  induction front generalizing s with
  | nil => cases h; rfl
  | cons i front ih =>
    obtain ⟨u, hu, hr⟩ := runOps_cons h
    rw [List.cons_append, runOps, hu]
    exact ih hr

end Sys2Proof.Laws
end

