-- ==== Sys2Proof/Laws/PerInstr.lean ====
section
/-! SUPPORT. Statements made for every constructor of `Instr`. -/

namespace Sys2Proof.Laws.EncodedPort

/-- Which of the three ports an encoded input stands on. -/
def isDatagram : Input → Bool
  | .datagram _ => true
  | .event _ _ => false
  | .datapath _ _ => false

/-- The six wire rows of the table, and no others, are encoded as datagrams (`30_encoding.md` R91). -/
def Statement (i : Instr) : Prop :=
  isDatagram (encode i) = true ↔
    (∃ f m, i = .request f m) ∨ (∃ f m, i = .errreq f m) ∨ (∃ b p, i = .data b p) ∨ (∃ b, i = .ack b) ∨
      (∃ c m, i = .error c m) ∨ (∃ b, i = .nack b)

theorem request (fname mode : List Byte) : Statement (.request fname mode) := by simp [Statement, encode, isDatagram]
theorem errreq (fname mode : List Byte) : Statement (.errreq fname mode) := by simp [Statement, encode, isDatagram]
theorem data (blk : Half) (payload : List Byte) : Statement (.data blk payload) := by
  simp [Statement, encode, isDatagram]
theorem ack (blk : Half) : Statement (.ack blk) := by simp [Statement, encode, isDatagram]
theorem error (code : Half) (msg : List Byte) : Statement (.error code msg) := by simp [Statement, encode, isDatagram]
theorem nack (blk : Half) : Statement (.nack blk) := by simp [Statement, encode, isDatagram]
theorem nop : Statement .nop := by simp [Statement, encode, isDatagram]
theorem start (em : Bool) (fname mode : List Byte) : Statement (.start em fname mode) := by
  simp [Statement, encode, isDatagram]
theorem rx (rxb : List Byte) : Statement (.rx rxb) := by simp [Statement, encode, isDatagram]
theorem tick : Statement .tick := by simp [Statement, encode, isDatagram]
theorem sinkfail : Statement .sinkfail := by simp [Statement, encode, isDatagram]
theorem reset : Statement .reset := by simp [Statement, encode, isDatagram]
theorem cwSyn (cw : Codeword) : Statement (.cwSyn cw) := by simp [Statement, encode, isDatagram]
theorem cwCor (cw : Codeword) (syn : BitVec 5) : Statement (.cwCor cw syn) := by simp [Statement, encode, isDatagram]
theorem cwOpc (cw : Codeword) : Statement (.cwOpc cw) := by simp [Statement, encode, isDatagram]
theorem cwExt (cw : Codeword) : Statement (.cwExt cw) := by simp [Statement, encode, isDatagram]
theorem cwDecode (cw : Codeword) : Statement (.cwDecode cw) := by simp [Statement, encode, isDatagram]
theorem rsmPack (b : List Bool) : Statement (.rsmPack b) := by simp [Statement, encode, isDatagram]
theorem rsmStep (w : Carry) (g : Group) : Statement (.rsmStep w g) := by simp [Statement, encode, isDatagram]
theorem rsmPayload (payload : List Byte) : Statement (.rsmPayload payload) := by
  simp [Statement, encode, isDatagram]

end Sys2Proof.Laws.EncodedPort
end

