-- ==== Sys2Proof/Tests/Slice0.lean ====
section
/-! SUPPORT. Tests whose expected results come from the spec (the vectors of `95_test_vectors.md` and the examples
of the rules, named at each test), the smoke test of `Instr.wellFormed`, and for every obligation with hypotheses a
witness that meets them. -/

namespace Sys2Proof.Tests

/- The tests are elaborated one after another: side by side, each would wait in a thread of its own until the kernel
is through with those before it. -/
set_option Elab.async false

open Sys2Proof.Machine

/-! ### Fixtures -/

/-- The instantiation of `95_test_vectors.md` section 5. -/
def cfg : Config :=
  { finalThreshold := 400, ackTicks := 5, nackTicks := 2, timerW := 3, finalAck := false, startBeforeSinkfail := true }

/-- The same with another threshold. -/
def cfgOf (threshold : Nat) : Config := { cfg with finalThreshold := threshold }

/-- A machine with these registers and nothing else. -/
def machine (c : Config) (r : Regs) : State :=
  { regs := r, cfg := c, pending := [], effects := [], flags := { }, result := none }

/-- AWAITING after START, no response sent yet. -/
def fresh : Regs := { Regs.reset with state := .awaiting }

/-- AWAITING with this timer count after ACK 1. -/
def acked (count : Nat) : Regs :=
  { fresh with expected := 1, timerArmed := true, timerCount := count, lastKind := .ack, lastBlk := 1 }

/-- AWAITING with this timer count after NACK 1. -/
def nacked (count : Nat) : Regs :=
  { fresh with timerArmed := true, timerCount := count, lastKind := .nack, lastBlk := 1 }

/-- DONE after block 2. -/
def finished : Regs := { fresh with state := .done, expected := 2, lastKind := .ack, lastBlk := 1 }

/-- FAILED by a protocol ERROR with code 1. -/
def failed : Regs := { fresh with state := .failed, failCause := .protocol, errCode := 1 }

/-- The carry `010011` of V-F29 and of program P4. -/
def carry010011 : Carry := .c6 false true false false true true

/-- `HELLO` of `95_test_vectors.md`. -/
def hello : List Byte :=
  [0xc9#8, 0x0d#8, 0x53#8, 0x89#8, 0x81#8, 0x34#8, 0xec#8, 0xed#8, 0x17#8, 0x59#8, 0x77#8, 0x27#8, 0xa1#8, 0x68#8, 0xc4#8, 0x46#8]

/-- `HELLO` with two flips in codeword 2 (V-R8). -/
def helloBad : List Byte :=
  [0xc9#8, 0x0d#8, 0x53#8, 0x89#8, 0x81#8, 0x34#8, 0xec#8, 0xed#8, 0x14#8, 0x59#8, 0x77#8, 0x27#8, 0xa1#8, 0x68#8, 0xc4#8, 0x46#8]

/-- `HELLO` with one flip in each codeword (V-R9). -/
def helloFlipped : List Byte :=
  [0xc8#8, 0x0d#8, 0x53#8, 0x89#8, 0x81#8, 0x24#8, 0xec#8, 0xed#8, 0x17#8, 0x59#8, 0xf7#8, 0x27#8, 0xa1#8, 0x68#8, 0xc4#8, 0x06#8]

/-- "Hello, world!". -/
def helloText : List Byte :=
  [0x48#8, 0x65#8, 0x6c#8, 0x6c#8, 0x6f#8, 0x2c#8, 0x20#8, 0x77#8, 0x6f#8, 0x72#8, 0x6c#8, 0x64#8, 0x21#8]

/-- A bit sequence from its digits, element 0 first. -/
def digits (l : List Nat) : List Bool := l.map (fun d => d == 1)

/-- The group of V-C5. -/
def groupAbc : Group := 0x636261#26

/-- "a.txt". -/
def aTxt : List Byte := [0x61#8, 0x2e#8, 0x74#8, 0x78#8, 0x74#8]

/-- "octet". -/
def octet : List Byte := [0x6f#8, 0x63#8, 0x74#8, 0x65#8, 0x74#8]

/-- The registers and the effects after an outcome. -/
def after : Host.Outcome State Fault Refusal → Option (Regs × List Effect)
  | .next t => some (t.regs, t.effects)
  | .fault _ => none
  | .refused _ => none

/-- The answer port after an outcome. -/
def answer : Host.Outcome State Fault Refusal → Option (Flags × Option DatapathResult)
  | .next t => some (t.flags, t.result)
  | .fault _ => none
  | .refused _ => none

/-- What the decoder answers, without the reason of a refusal. -/
def decoded (input : Input) : Option Instr := (decode input).toOption

/-! ### Well-formedness: one ill-formed operation for each check -/

theorem smoke_request_fname : (Instr.request [0x61#8, 0x00#8] octet).wellFormed = false := by decide
theorem smoke_request_mode : (Instr.request aTxt [0x00#8]).wellFormed = false := by decide
theorem smoke_errreq_fname : (Instr.errreq [0x00#8] octet).wellFormed = false := by decide
theorem smoke_errreq_mode : (Instr.errreq aTxt [0x61#8, 0x00#8]).wellFormed = false := by decide
theorem smoke_data_misaligned : (Instr.data 1 [0x48#8, 0x31#8, 0x23#8]).wellFormed = false := by decide
theorem smoke_data_oversize : (Instr.data 1 (List.replicate 516 0x00#8)).wellFormed = false := by decide +kernel
theorem smoke_rsmPack : (Instr.rsmPack [true, false, true]).wellFormed = false := by decide
theorem smoke_rsmPayload_misaligned : (Instr.rsmPayload [0x48#8]).wellFormed = false := by decide
theorem smoke_rsmPayload_oversize : (Instr.rsmPayload (List.replicate 516 0x00#8)).wellFormed = false := by
  decide +kernel
theorem smoke_full_payload : (Instr.data 1 (List.replicate 512 0x00#8)).wellFormed = true := by decide +kernel

/-! ### Decoding: every constructor from the bits the spec gives it -/

/-- R84, R85: opcode 1, "f", NUL, "m", NUL. -/
theorem decode_request : decoded (.datagram
    [0b00000000#8, 0b00000001#8, 0b01100110#8, 0b00000000#8, 0b01101101#8, 0b00000000#8]) =
    some (.request [0x66#8] [0x6d#8]) := by decide
/-- R84, R85: opcode 2. -/
theorem decode_errreq : decoded (.datagram
    [0b00000000#8, 0b00000010#8, 0b01100110#8, 0b00000000#8, 0b01101101#8, 0b00000000#8]) =
    some (.errreq [0x66#8] [0x6d#8]) := by decide
/-- R86, R51: opcode 3, block 258 with its more significant byte first, one codeword. -/
theorem decode_data : decoded (.datagram
    [0b00000000#8, 0b00000011#8, 0b00000001#8, 0b00000010#8,
      0b01001000#8, 0b00110001#8, 0b00100011#8, 0b11000011#8]) =
    some (.data 258 [0x48#8, 0x31#8, 0x23#8, 0xc3#8]) := by decide
/-- R87: opcode 4. -/
theorem decode_ack : decoded (.datagram [0b00000000#8, 0b00000100#8, 0b00000001#8, 0b00000010#8]) =
    some (.ack 258) := by decide
/-- R88: opcode 5, code 65534, message "no". -/
theorem decode_error : decoded (.datagram
    [0b00000000#8, 0b00000101#8, 0b11111111#8, 0b11111110#8, 0b01101110#8, 0b01101111#8]) =
    some (.error 65534 [0x6e#8, 0x6f#8]) := by decide
/-- R87: opcode 6. -/
theorem decode_nack : decoded (.datagram [0b00000000#8, 0b00000110#8, 0b00000000#8, 0b00000001#8]) =
    some (.nack 1) := by decide
/-- R89: event codes 0 to 5. -/
theorem decode_nop : decoded (.event 0b000 { }) = some .nop := by decide
theorem decode_start : decoded (.event 0b001 { em := true, fname := aTxt, mode := octet }) =
    some (.start true aTxt octet) := by decide
theorem decode_rx : decoded (.event 0b010 { rxb := [0x00#8, 0x04#8] }) = some (.rx [0x00#8, 0x04#8]) := by decide
theorem decode_tick : decoded (.event 0b011 { }) = some .tick := by decide
theorem decode_sinkfail : decoded (.event 0b100 { }) = some .sinkfail := by decide
theorem decode_reset : decoded (.event 0b101 { }) = some .reset := by decide
/-- R92 (c): the reserved event codes. -/
theorem decode_reserved_6 : decoded (.event 0b110 { }) = some .nop := by decide
theorem decode_reserved_7 : decoded (.event 0b111 { }) = some .nop := by decide
/-- R81, R52: the payload bytes of V-C5 are this codeword, position 31 written first. -/
theorem decode_cw32_bytes : codewordOfBytes 0x48#8 0x31#8 0x23#8 0xc3#8 =
    0b11000011001000110011000101001000#32 := by decide
theorem decode_cwSyn : decoded (.datapath .cwSyn { cw := 0b11000011001000110011000101001000#32 }) =
    some (.cwSyn 0xC3233148#32) := by decide
theorem decode_cwCor : decoded (.datapath .cwCor { cw := 0xC323314C#32, syn := 0b00011#5 }) =
    some (.cwCor 0xC323314C#32 3#5) := by decide
theorem decode_cwOpc : decoded (.datapath .cwOpc { cw := 0xC3233148#32 }) = some (.cwOpc 0xC3233148#32) := by decide
theorem decode_cwExt : decoded (.datapath .cwExt { cw := 0xC3233148#32 }) = some (.cwExt 0xC3233148#32) := by decide
theorem decode_cwDecode : decoded (.datapath .cwDecode { cw := 0xC3233148#32 }) =
    some (.cwDecode 0xC3233148#32) := by decide
theorem decode_rsmPack : decoded (.datapath .rsmPack { bits := digits [1, 0, 0, 0, 0, 1, 1, 0] }) =
    some (.rsmPack [true, false, false, false, false, true, true, false]) := by decide
theorem decode_rsmStep : decoded (.datapath .rsmStep { bits := digits [0, 1, 0, 0, 1, 1], group := groupAbc }) =
    some (.rsmStep carry010011 groupAbc) := by decide
theorem decode_rsmPayload : decoded (.datapath .rsmPayload { payload := hello }) = some (.rsmPayload hello) := by
  decide

/-! ### Rejected encodings, by name -/

/-- R90: fewer than 2 bytes. -/
theorem reject_noOpcode : decode (.datagram [0x00#8]) = .error .noOpcode := rfl
/-- R92 (a), V-F8: opcode 259. -/
theorem reject_unknownOpcode : decode (.datagram [0x01#8, 0x03#8, 0x00#8, 0x02#8]) = .error .unknownOpcode := rfl
/-- R92 (b), V-F9. -/
theorem reject_shortHeader : decode (.datagram [0x00#8, 0x05#8, 0x00#8]) = .error .shortHeader := rfl
/-- R56, V-F10. -/
theorem reject_misaligned : decode (.datagram [0x00#8, 0x03#8, 0x00#8, 0x02#8, 0x48#8, 0x31#8, 0x23#8]) =
    .error .misalignedPayload := rfl
theorem reject_oversize : decode (.datagram ([0x00#8, 0x03#8, 0x00#8, 0x02#8] ++ List.replicate 516 0x00#8)) =
    .error .oversizePayload := by decide +kernel
/-- R87: exactly 4 bytes. -/
theorem reject_trailing : decode (.datagram [0x00#8, 0x04#8, 0x00#8, 0x02#8, 0x00#8]) = .error .trailingBytes := rfl
/-- R85: the mode is not ended. -/
theorem reject_strings : decode (.datagram [0x00#8, 0x01#8, 0x66#8, 0x00#8, 0x6d#8]) = .error .badRequestStrings :=
  rfl
/-- R143: 7 bits. -/
theorem reject_partialByte : decode (.datapath .rsmPack { bits := digits [1, 0, 0, 0, 0, 1, 1] }) =
    .error .partialByte := rfl
/-- R144: a carry of 3 bits. -/
theorem reject_carryLength : decode (.datapath .rsmStep { bits := digits [1, 0, 1] }) = .error .badCarryLength := rfl

/-! ### Wire operations -/

/-- R178, with the strings of its example. -/
theorem test_request : after (exec (.request aTxt octet) (machine cfg fresh)) = some (fresh,
    [.tx [0x00#8, 0x01#8, 0x61#8, 0x2e#8, 0x74#8, 0x78#8, 0x74#8, 0x00#8, 0x6f#8, 0x63#8, 0x74#8, 0x65#8, 0x74#8, 0x00#8]]) := by decide +kernel
/-- R178, its example. -/
theorem test_errreq : after (exec (.errreq aTxt octet) (machine cfg fresh)) = some (fresh,
    [.tx [0x00#8, 0x02#8, 0x61#8, 0x2e#8, 0x74#8, 0x78#8, 0x74#8, 0x00#8, 0x6f#8, 0x63#8, 0x74#8, 0x65#8, 0x74#8, 0x00#8]]) := by decide +kernel
/-- V-F17: a decoded length equal to the threshold is not final. -/
theorem test_data_accept : after (exec (.data 1 hello) (machine (cfgOf 13) fresh)) = some (acked 5,
    [.sinkAppend helloText, .tx [0x00#8, 0x04#8, 0x00#8, 0x01#8]]) := by decide +kernel
/-- V-F18: one less is. -/
theorem test_data_final : after (exec (.data 1 hello) (machine (cfgOf 14) fresh)) = some
    ({ fresh with state := .done, expected := 1 }, [.sinkAppend helloText, .sinkFlush, .sinkClose, .doneOk]) := by
  decide +kernel
/-- R179, its example. -/
theorem test_ack : after (exec (.ack 258) (machine cfg fresh)) =
    some (fresh, [.tx [0x00#8, 0x04#8, 0x01#8, 0x02#8]]) := by decide +kernel
/-- R180, its example. -/
theorem test_nack : after (exec (.nack 1) (machine cfg fresh)) =
    some (fresh, [.tx [0x00#8, 0x06#8, 0x00#8, 0x01#8]]) := by decide +kernel
/-- V-F23. -/
theorem test_error : after (exec (.error 65534 []) (machine cfg fresh)) = some
    ({ fresh with state := .failed, failCause := .protocol, errCode := 65534 },
      [.sinkFlush, .sinkClose, .errCb 65534 []]) := by decide +kernel
/-- R209: a second ERROR has no effect. -/
theorem test_error_failed : after (exec (.error 2 [0x00#8]) (machine cfg failed)) = some (failed, []) := by
  decide +kernel

/-! ### Events -/

/-- R175. -/
theorem test_nop : after (exec .nop (machine cfg (acked 1))) = some (acked 1, []) := by decide +kernel
/-- V-F2. -/
theorem test_start : after (exec (.start true [0x66#8] octet) (machine cfg Regs.reset)) = some
    ({ Regs.reset with state := .awaiting, em := true },
      [.tx [0x00#8, 0x02#8, 0x66#8, 0x00#8, 0x6f#8, 0x63#8, 0x74#8, 0x65#8, 0x74#8, 0x00#8]]) := by decide +kernel
/-- V-F4. -/
theorem test_start_awaiting : after (exec (.start false [0x67#8] octet) (machine cfg { fresh with em := true })) =
    some ({ fresh with em := true }, []) := by decide +kernel
/-- V-F13: the trailing zero byte is stripped. -/
theorem test_rx_final : after (exec (.rx [0x00#8, 0x03#8, 0x00#8, 0x02#8, 0x81#8, 0x00#8, 0x23#8, 0x43#8])
      (machine cfg (acked 5))) = some
    ({ acked 5 with state := .done, expected := 2, carry := .c2 false false, timerArmed := false, timerCount := 0 },
      [.sinkAppend [0x61#8, 0x62#8], .sinkFlush, .sinkClose, .doneOk]) := by decide +kernel
/-- V-F29: position 31 flipped, answered by NACK, the carry kept. -/
theorem test_rx_nack : after (exec (.rx [0x00#8, 0x03#8, 0x00#8, 0x02#8, 0xa1#8, 0x68#8, 0xc4#8, 0xc6#8])
      (machine (cfgOf 4) { acked 5 with carry := carry010011 })) = some
    ({ acked 2 with carry := carry010011, lastKind := .nack, lastBlk := 2 },
      [.tx [0x00#8, 0x06#8, 0x00#8, 0x02#8]]) := by decide +kernel
/-- V-F19. -/
theorem test_tick_count : after (exec .tick (machine cfg (nacked 2))) = some (nacked 1, []) := by decide +kernel
/-- V-F20: the reload is that of the kind resent. -/
theorem test_tick_expiry : after (exec .tick (machine cfg (nacked 1))) = some
    (nacked 2, [.tx [0x00#8, 0x06#8, 0x00#8, 0x01#8]]) := by decide +kernel
/-- V-F24. -/
theorem test_sinkfail : after (exec .sinkfail (machine cfg { acked 5 with em := true })) = some
    ({ acked 5 with em := true, state := .failed, failCause := .sink, sinkFault := true, timerArmed := false, timerCount := 0 },
      []) := by decide +kernel
/-- V-F25. -/
theorem test_sinkfail_done : after (exec .sinkfail (machine cfg finished)) =
    some ({ finished with sinkFault := true }, []) := by decide +kernel
/-- V-F27. -/
theorem test_reset : after (exec .reset (machine cfg { acked 5 with carry := carry010011 })) =
    some (Regs.reset, []) := by decide +kernel

/-! ### Codec -/

/-- R121, its example. -/
theorem test_cwSyn : answer (exec (.cwSyn 0xC323314C#32) (machine cfg fresh)) =
    some ({ syn := some 3#5 }, some (.syndrome 3#5)) := by decide +kernel
/-- V-C19. -/
theorem test_cwSyn_two_classes : answer (exec (.cwSyn 0xDEADBEEF#32) (machine cfg fresh)) =
    some ({ syn := some 20#5 }, some (.syndrome 20#5)) := by decide +kernel
/-- V-C11. -/
theorem test_cwCor : answer (exec (.cwCor 0x8323314C#32 28#5) (machine cfg fresh)) =
    some ({ }, some (.corrected 0x8B23314C#32)) := by decide +kernel
/-- V-C19: 23 set bits. -/
theorem test_cwOpc : answer (exec (.cwOpc 0xDEA5BEEF#32) (machine cfg fresh)) =
    some ({ par := some true }, some (.parity true)) := by decide +kernel
/-- R124, its example. -/
theorem test_cwExt : answer (exec (.cwExt 0xC3233148#32) (machine cfg fresh)) =
    some ({ }, some (.group groupAbc)) := by decide +kernel
/-- The stage vector `CW.EXT(0x00004000)`: position 14 is `g[15]`. -/
theorem test_cwExt_gap : answer (exec (.cwExt 0x00004000#32) (machine cfg fresh)) =
    some ({ }, some (.group 0x8000#26)) := by decide +kernel
/-- V-C8. -/
theorem test_cwDecode : answer (exec (.cwDecode 0xC323314C#32) (machine cfg fresh)) =
    some ({ syn := some 3#5, par := some false, unc := some false }, some (.decoded (.ok groupAbc))) := by
  decide +kernel
/-- V-C9: the asymmetric case. -/
theorem test_cwDecode_asymmetric : answer (exec (.cwDecode 0x43233148#32) (machine cfg fresh)) =
    some ({ syn := some 0#5, par := some true, unc := some true }, some (.decoded (.uncorrectable 0#5))) := by
  decide +kernel

/-! ### Reassembler -/

/-- V-R3. -/
theorem test_rsmPack : answer (exec (.rsmPack (digits [1, 0, 0, 0, 0, 1, 1, 0, 0, 1, 0, 0, 0, 1, 1, 0,
      1, 1, 0, 0, 0, 1, 1, 0])) (machine cfg fresh)) =
    some ({ }, some (.packed [0x61#8, 0x62#8, 0x63#8])) := by decide +kernel
/-- V-R14. -/
theorem test_rsmStep : answer (exec (.rsmStep (.c2 true true) groupAbc) (machine cfg fresh)) =
    some ({ }, some (.stepped [0x87#8, 0x89#8, 0x8d#8] (.c4 true false false false))) := by decide +kernel
/-- V-R16. -/
theorem test_rsmStep_full : answer (exec (.rsmStep (.c6 true false true true false true) groupAbc)
      (machine cfg fresh)) =
    some ({ }, some (.stepped [0x6d#8, 0x98#8, 0xd8#8, 0x18#8] .c0)) := by decide +kernel
/-- V-R9: one flip in each codeword. -/
theorem test_rsmPayload : answer (exec (.rsmPayload helloFlipped) (machine cfg fresh)) =
    some ({ plOk := some true }, some (.payload (some (helloText, .c0)))) := by decide +kernel
/-- V-R8. -/
theorem test_rsmPayload_fail : answer (exec (.rsmPayload helloBad)
      (machine cfg { fresh with carry := .c2 true false })) =
    some ({ plOk := some false }, some (.payload none)) := by decide +kernel

/-! ### The machine -/

/-- `withFetchWord` from reset: the event START of R89 with empty operands runs as the first operation. -/
theorem test_fetch_start : (after (step (State.reset.withFetchWord 8 0b001))).map Prod.snd =
    some [.tx [0x00#8, 0x01#8, 0x00#8, 0x00#8]] := rfl
/-- R207: RESET first, RX before TICK. -/
theorem test_period : (({ reset := true, start := none, sinkfail := false, rx := some [], tick := true } :
    Period).order true) = [.event 5 { }, .event 2 { }, .event 3 { }] := by decide

/-! ### Witnesses: for each obligation with hypotheses, a state and operands that meet them, clause by clause -/

/-- The same machine with these inputs to come. -/
def queued (s : State) (pending : List Input) : State := { s with pending := pending }

/-- The next state of an operation, where it answers one; every operation does. -/
def next (i : Instr) (s : State) : State :=
  match exec i s with
  | .next t => t
  | .fault _ => s
  | .refused _ => s

/-- `HELLO` as a received DATA datagram for block 1. -/
def helloRx : Instr := .rx ([0x00#8, 0x03#8, 0x00#8, 0x01#8] ++ hello)

/-- `HELLO` with two flips, received for block 1. -/
def helloBadRx : Instr := .rx ([0x00#8, 0x03#8, 0x00#8, 0x01#8] ++ helloBad)

theorem helloBad_isData : isData helloBadRx 1 helloBad := .inr ⟨0x00#8, 0x01#8, by decide, rfl⟩

theorem hello_isData : isData helloRx 1 hello := .inr ⟨0x00#8, 0x01#8, by decide, rfl⟩

theorem hello_inOrder (threshold : Nat) : (machine (cfgOf threshold) fresh).inOrderFor 1 hello :=
  ⟨rfl, by decide, by decide, rfl⟩

theorem hello_decodes : decodePayload .c0 hello = some (helloText, .c0) := by decide +kernel

theorem helloBad_fails : decodePayload .c0 helloBad = none := by decide +kernel

theorem cfg_ok : cfg.ok := by decide

theorem fresh_inv : (machine cfg fresh).inv := by decide

theorem witness_WaitingLeavesAllStateUnchanged : State.reset.pending = [] := rfl

theorem witness_StepRunsTheDecodedOperation :
    (queued (machine cfg fresh) [.event 3 { }, .event 0 { }]).pending = .event 3 { } :: [.event 0 { }] ∧
      decode (.event 3 { }) = .ok .tick := ⟨rfl, rfl⟩

theorem witness_EveryEventIsProcessedInOneStep :
    (queued State.reset [.event 7 { }]).pending = .event 7 { } :: [] := rfl

theorem witness_InputsThatAreNoOperation_datagram :
    (queued State.reset [.datagram [0x00#8]]).pending = .datagram [0x00#8] :: [] ∧
      decode (.datagram [0x00#8]) = .error .noOpcode := ⟨rfl, rfl⟩

theorem witness_InputsThatAreNoOperation_datapath :
    (queued State.reset [.datapath .rsmPack { bits := [true] }]).pending =
        .datapath .rsmPack { bits := [true] } :: [] ∧
      decode (.datapath .rsmPack { bits := [true] }) = .error .partialByte := ⟨rfl, rfl⟩

theorem witness_DecodeOfEncodeIsTheOperation : (Instr.request aTxt octet).wellFormed = true ∧
    (Instr.data 65535 (List.replicate 512 0xff#8)).wellFormed = true ∧
    (Instr.rsmPack (digits [1, 0, 0, 0, 0, 1, 1, 0])).wellFormed = true ∧ (Instr.rsmPayload []).wellFormed = true := by
  decide +kernel

theorem witness_DecodedOperationsAreWellFormed :
    decode (.datagram [0x00#8, 0x03#8, 0x00#8, 0x01#8, 0x48#8, 0x31#8, 0x23#8, 0xc3#8]) =
      .ok (.data 1 [0x48#8, 0x31#8, 0x23#8, 0xc3#8]) := rfl

theorem witness_WireOpcodeMap :
    decode (.datagram [0x00#8, 0x01#8, 0x00#8, 0x00#8]) = .ok (.request [] []) ∧
    decode (.datagram [0x00#8, 0x02#8, 0x00#8, 0x00#8]) = .ok (.errreq [] []) ∧
    decode (.datagram [0x00#8, 0x03#8, 0x00#8, 0x00#8]) = .ok (.data 0 []) ∧
    decode (.datagram [0x00#8, 0x04#8, 0xff#8, 0xff#8]) = .ok (.ack 65535) ∧
    decode (.datagram [0x00#8, 0x05#8, 0x00#8, 0x00#8]) = .ok (.error 0 []) ∧
    decode (.datagram [0x00#8, 0x06#8, 0x01#8, 0x00#8]) = .ok (.nack 256) := ⟨rfl, rfl, rfl, rfl, rfl, rfl⟩

theorem witness_NopAndReservedCodesChangeNothing :
    ((0 : BitVec 3) = 0 ∨ (0 : BitVec 3) = 6 ∨ (0 : BitVec 3) = 7) ∧
    ((6 : BitVec 3) = 0 ∨ (6 : BitVec 3) = 6 ∨ (6 : BitVec 3) = 7) ∧
    ((7 : BitVec 3) = 0 ∨ (7 : BitVec 3) = 6 ∨ (7 : BitVec 3) = 7) := by decide

theorem witness_ResetEventRestoresEveryItem :
    exec .reset (machine cfg finished) = .next (next .reset (machine cfg finished)) ∧
      (machine cfg finished).regs.state = .done ∧
      (next .reset (machine cfg finished)).regs.state ≠ (machine cfg finished).regs.state :=
  ⟨rfl, rfl, by decide +kernel⟩

theorem witness_StartSendsTheRequestFromIdle_idle : State.reset.regs.state = .idle := rfl
theorem witness_StartSendsTheRequestFromIdle_other : (machine cfg failed).regs.state ≠ .idle := by decide

theorem witness_TickCountsDownAndExpires_disarmed : (machine cfg fresh).regs.timerArmed = false := rfl
theorem witness_TickCountsDownAndExpires_count :
    (machine cfg (acked 2)).regs.timerArmed = true ∧ 2 ≤ (machine cfg (acked 2)).regs.timerCount := by decide
theorem witness_TickCountsDownAndExpires_ack : (machine cfg (acked 1)).regs.timerArmed = true ∧
    (machine cfg (acked 1)).regs.timerCount = 1 ∧ (machine cfg (acked 1)).regs.lastKind = .ack := by decide
theorem witness_TickCountsDownAndExpires_nack : (machine cfg (nacked 1)).regs.timerArmed = true ∧
    (machine cfg (nacked 1)).regs.timerCount = 1 ∧ (machine cfg (nacked 1)).regs.lastKind = .nack := by decide

theorem witness_SinkFailureIsRecordedAndEndsATransfer_idle : State.reset.regs.state = .idle := rfl
theorem witness_SinkFailureIsRecordedAndEndsATransfer_awaiting : (machine cfg (acked 5)).regs.state = .awaiting := rfl
theorem witness_SinkFailureIsRecordedAndEndsATransfer_later :
    (machine cfg finished).regs.state ≠ .idle ∧ (machine cfg finished).regs.state ≠ .awaiting := by decide

theorem witness_RxOutsideAwaitingDoesNothing : (machine cfg finished).regs.state ≠ .awaiting := by decide

theorem witness_MalformedDatagramsAreDiscarded_short : [0x00#8].length < 2 := by decide
/-- Opcodes 2, 4 and 6 stand next to the two that have a meaning. -/
theorem witness_MalformedDatagramsAreDiscarded_opcode :
    ((0x00#8).toNat * 256 + (0x02#8).toNat ≠ 3 ∧ (0x00#8).toNat * 256 + (0x02#8).toNat ≠ 5) ∧
    ((0x00#8).toNat * 256 + (0x04#8).toNat ≠ 3 ∧ (0x00#8).toNat * 256 + (0x04#8).toNat ≠ 5) ∧
    ((0x00#8).toNat * 256 + (0x06#8).toNat ≠ 3 ∧ (0x00#8).toNat * 256 + (0x06#8).toNat ≠ 5) := by decide
theorem witness_MalformedDatagramsAreDiscarded_header : [0x00#8, 0x03#8, 0x00#8].length < 4 := by decide
theorem witness_MalformedDatagramsAreDiscarded_payload :
    ([0x00#8, 0x03#8, 0x00#8, 0x01#8] ++ List.replicate 516 0x00#8).length - 4 > 512 ∧
    ([0x00#8, 0x03#8, 0x00#8, 0x01#8, 0x48#8].length - 4) % 4 ≠ 0 ∧ (0x00#8).toNat * 256 + (0x03#8).toNat = 3 := by
  refine ⟨?_, by decide, by decide⟩
  rw [List.length_append, List.length_replicate]
  decide

/-- A duplicate of block 1, and block 0 where 65535 was the last. -/
theorem witness_OutOfOrderDataIsDiscarded : isData helloRx 1 hello ∧
    (1 : Half).toNat ≠ ((machine cfg (acked 5)).regs.expected.toNat + 1) % 65536 ∧
    (1 : Half).toNat ≠ ((65535 : Half).toNat + 1) % 65536 := ⟨hello_isData, by decide, by decide⟩

/-- The decoded length equals the threshold. -/
theorem witness_AcceptedBlockIsCommittedAndAcknowledged : isData helloRx 1 hello ∧
    (machine (cfgOf 13) fresh).inOrderFor 1 hello ∧
    decodePayload (machine (cfgOf 13) fresh).regs.carry hello = some (helloText, .c0) ∧
    (machine (cfgOf 13) fresh).cfg.finalThreshold ≤ helloText.length :=
  ⟨hello_isData, hello_inOrder 13, hello_decodes, by decide⟩

/-- The decoded length is one below the threshold. -/
theorem witness_FinalBlockEndsTheTransfer : isData helloRx 1 hello ∧
    (machine (cfgOf 14) fresh).inOrderFor 1 hello ∧
    decodePayload (machine (cfgOf 14) fresh).regs.carry hello = some (helloText, .c0) ∧
    helloText.length < (machine (cfgOf 14) fresh).cfg.finalThreshold :=
  ⟨hello_isData, hello_inOrder 14, hello_decodes, by decide⟩

/-- V-F16: the same with `FINAL_ACK`; the ACK then stands between the bytes and the flush. -/
theorem witness_FinalBlockEndsTheTransfer_finalAck : isData helloRx 1 hello ∧
    (machine { cfgOf 14 with finalAck := true } fresh).inOrderFor 1 hello ∧
    decodePayload (machine { cfgOf 14 with finalAck := true } fresh).regs.carry hello = some (helloText, .c0) ∧
    helloText.length < (machine { cfgOf 14 with finalAck := true } fresh).cfg.finalThreshold ∧
    (machine { cfgOf 14 with finalAck := true } fresh).cfg.finalAck = true :=
  ⟨hello_isData, ⟨rfl, by decide, by decide, rfl⟩, hello_decodes, by decide, rfl⟩

theorem witness_RejectedBlockIsAnsweredByNack : isData (.data 1 helloBad) 1 helloBad ∧
    (machine cfg fresh).inOrderFor 1 helloBad ∧
    decodePayload (machine cfg fresh).regs.carry helloBad = none :=
  ⟨.inl rfl, ⟨rfl, by decide, by decide, rfl⟩, helloBad_fails⟩

theorem error_isError : isError (.rx [0x00#8, 0x05#8, 0xff#8, 0xfe#8]) 65534 [] :=
  .inr ⟨0xff#8, 0xfe#8, by decide, rfl⟩

theorem witness_ErrorResponseFailsTheTransfer_awaiting :
    isError (.rx [0x00#8, 0x05#8, 0xff#8, 0xfe#8]) 65534 [] ∧ (machine cfg fresh).regs.state = .awaiting :=
  ⟨error_isError, rfl⟩
theorem witness_ErrorResponseFailsTheTransfer_other :
    isError (.rx [0x00#8, 0x05#8, 0xff#8, 0xfe#8]) 65534 [] ∧ (machine cfg failed).regs.state ≠ .awaiting :=
  ⟨error_isError, by decide⟩

theorem witness_ErrorResponseFailsTheTransfer_short : [0xff#8].length < 2 := by decide

theorem witness_ResponseDatagramsAreTransmitted :
    (0x01#8).toNat = (258 : Half).toNat / 256 ∧ (0x02#8).toNat = (258 : Half).toNat % 256 := by decide

theorem witness_SyndromeIsTheFiveClassParities : 0 < 5 ∧ 4 < 5 := by decide
theorem witness_CorrectionInvertsTheNamedPosition : 0 < 32 ∧ 31 < 32 := by decide
theorem witness_ExtractionReversesTheDataPositions :
    0 < 26 ∧ 25 < 26 ∧ 0 ∈ [0, 1, 3, 7, 15, 31] ∧ 31 ∈ [0, 1, 3, 7, 15, 31] := by decide

/-- V-C1, V-C10a, V-C10 and V-C13a. -/
theorem witness_DecodeHasTheFourOutcomes :
    (syndrome 0x00000000#32 = 0#5 ∧ overallParity 0x00000000#32 = false) ∧
    (syndrome 0x80000000#32 = 0#5 ∧ overallParity 0x80000000#32 = true) ∧
    (syndrome 0x40000000#32 ≠ 0#5 ∧ overallParity 0x40000000#32 = true) ∧
    (syndrome 0x00000003#32 ≠ 0#5 ∧ overallParity 0x00000003#32 = false) := by decide +kernel

theorem abc_valid : validCodeword 0xC3233148#32 := by decide +kernel

theorem witness_AsymmetricCaseIsRejected :
    (syndrome 0x43233148#32 = 0#5 ∧ overallParity 0x43233148#32 = true) ∧ validCodeword 0xC3233148#32 :=
  ⟨by decide +kernel, abc_valid⟩
theorem witness_SingleFlipsAreCorrected : validCodeword 0xC3233148#32 ∧ 0 ≤ 30 ∧ 30 ≤ 30 := ⟨abc_valid, by decide⟩
theorem witness_DoubleFlipsAreDetected :
    validCodeword 0xC3233148#32 ∧ (0 < 1 ∧ 1 ≤ 31) ∧ (30 < 31 ∧ 31 ≤ 31) := ⟨abc_valid, by decide⟩
theorem witness_EveryGroupHasOneValidCodeword : validCodeword 0xC3233148#32 ∧ extract 0xC3233148#32 = groupAbc :=
  ⟨abc_valid, by decide +kernel⟩

theorem witness_CodewordsAreSlicedFromThePayload :
    hello.length % 4 = 0 ∧ 0 < hello.length / 4 ∧ 3 < hello.length / 4 ∧ 0 < 32 ∧ 31 < 32 := by decide
theorem witness_PackPutsTheFirstBitLowest :
    (digits [0, 0, 0, 0, 0, 0, 0, 1]).length % 8 = 0 ∧ 0 < [0x80#8].length ∧ 7 < 8 := by decide
theorem witness_StepEmitsCarryThenGroup : Carry.c0.len = 0 ∧ (Carry.c2 true true).len = 2 ∧
    (Carry.c4 false true true false).len = 4 ∧ carry010011.len = 6 := by decide
theorem witness_PayloadDecodesAllOrNothing : hello.length ≤ 512 ∧ hello.length % 4 = 0 ∧
    decodePayload (machine cfg fresh).regs.carry hello = some (helloText, .c0) :=
  ⟨by decide, by decide, hello_decodes⟩
theorem witness_DecodedLengthIsDetermined :
    hello.length ≤ 512 ∧ hello.length % 4 = 0 ∧ decodePayload .c0 hello = some (helloText, .c0) :=
  ⟨by decide, by decide, hello_decodes⟩

theorem witness_EveryStepKeepsTheInvariants : (queued (machine cfg (acked 1)) [.event 3 { }]).inv ∧
    step (queued (machine cfg (acked 1)) [.event 3 { }]) = .next (next .tick (machine cfg (acked 1))) :=
  ⟨by decide, rfl⟩
theorem witness_OperationsOnlyAppendEffects :
    exec .tick (machine cfg (nacked 1)) = .next (next .tick (machine cfg (nacked 1))) := rfl
theorem witness_CommitHappensOnlyOnAcceptance_none :
    exec .tick (machine cfg (nacked 1)) = .next (next .tick (machine cfg (nacked 1))) ∧ Instr.tick ≠ .reset ∧
      acceptedPayload .tick (machine cfg (nacked 1)) = none := ⟨rfl, by decide, rfl⟩
theorem witness_CommitHappensOnlyOnAcceptance_some :
    exec helloRx (machine (cfgOf 13) fresh) = .next (next helloRx (machine (cfgOf 13) fresh)) ∧ helloRx ≠ .reset ∧
      acceptedPayload helloRx (machine (cfgOf 13) fresh) = some hello :=
  ⟨rfl, by decide, by decide +kernel⟩

theorem witness_EndStatesAreAbsorbing_done : (machine cfg finished).inv ∧ Instr.sinkfail.isEvent = true ∧
    Instr.sinkfail ≠ .reset ∧ (machine cfg finished).regs.state = .done ∧
    exec .sinkfail (machine cfg finished) = .next (next .sinkfail (machine cfg finished)) :=
  ⟨by decide, rfl, by decide, rfl, rfl⟩
theorem witness_EndStatesAreAbsorbing_failed : (machine cfg failed).inv ∧ Instr.tick.isEvent = true ∧
    Instr.tick ≠ .reset ∧ (machine cfg failed).regs.state = .failed ∧ Instr.tick ≠ .sinkfail ∧
    exec .tick (machine cfg failed) = .next (next .tick (machine cfg failed)) :=
  ⟨by decide, rfl, by decide, rfl, by decide, rfl⟩

theorem witness_StateChangesOnlyForItsCauses_start :
    exec (.start false aTxt octet) State.reset = .next (next (.start false aTxt octet) State.reset) ∧
      (next (.start false aTxt octet) State.reset).regs.state ≠ State.reset.regs.state :=
  ⟨rfl, by show TransferState.awaiting ≠ .idle; decide⟩
theorem witness_StateChangesOnlyForItsCauses_final :
    exec helloRx (machine (cfgOf 14) fresh) = .next (next helloRx (machine (cfgOf 14) fresh)) ∧
      (next helloRx (machine (cfgOf 14) fresh)).regs.state ≠ fresh.state := ⟨rfl, by decide +kernel⟩
theorem witness_StateChangesOnlyForItsCauses_error :
    exec (.error 1 []) (machine cfg fresh) = .next (next (.error 1 []) (machine cfg fresh)) ∧
      (next (.error 1 []) (machine cfg fresh)).regs.state ≠ fresh.state := ⟨rfl, by decide +kernel⟩
theorem witness_StateChangesOnlyForItsCauses_reset :
    exec .reset (machine cfg finished) = .next (next .reset (machine cfg finished)) ∧
      (next .reset (machine cfg finished)).regs.state ≠ finished.state := ⟨rfl, by decide +kernel⟩

/-- One event for each shape, with the effects it adds. -/
theorem witness_EventEffectsAreOneOfTheseShapes_none : Instr.nop.isEvent = true ∧
    (after (exec .nop (machine cfg fresh))).map Prod.snd = some [] := ⟨rfl, rfl⟩
theorem witness_EventEffectsAreOneOfTheseShapes_start : (Instr.start true aTxt octet).isEvent = true ∧
    (after (exec (.start true aTxt octet) (machine cfg Regs.reset))).map Prod.snd =
      some [.tx (requestBytes true aTxt octet)] := ⟨rfl, by decide +kernel⟩
theorem witness_EventEffectsAreOneOfTheseShapes_ack : helloRx.isEvent = true ∧
    (after (exec helloRx (machine (cfgOf 13) fresh))).map Prod.snd =
      some [.sinkAppend helloText, .tx [0x00#8, 0x04#8, 0x00#8, 0x01#8]] := ⟨rfl, by decide +kernel⟩
theorem witness_EventEffectsAreOneOfTheseShapes_final : helloRx.isEvent = true ∧
    (after (exec helloRx (machine { cfgOf 14 with finalAck := true } fresh))).map Prod.snd =
      some [.sinkAppend helloText, .tx [0x00#8, 0x04#8, 0x00#8, 0x01#8], .sinkFlush, .sinkClose, .doneOk] :=
  ⟨rfl, by decide +kernel⟩
theorem witness_EventEffectsAreOneOfTheseShapes_nack : helloBadRx.isEvent = true ∧
    (after (exec helloBadRx (machine cfg fresh))).map Prod.snd =
      some [.tx [0x00#8, 0x06#8, 0x00#8, 0x01#8]] := ⟨rfl, by decide +kernel⟩
theorem witness_EventEffectsAreOneOfTheseShapes_error : (Instr.rx [0x00#8, 0x05#8, 0xff#8, 0xfe#8]).isEvent = true ∧
    (after (exec (.rx [0x00#8, 0x05#8, 0xff#8, 0xfe#8]) (machine cfg fresh))).map Prod.snd =
      some [.sinkFlush, .sinkClose, .errCb 65534 []] := ⟨rfl, by decide +kernel⟩
theorem witness_EventEffectsAreOneOfTheseShapes_tick : Instr.tick.isEvent = true ∧
    (after (exec .tick (machine cfg (acked 1)))).map Prod.snd = some [.tx [0x00#8, 0x04#8, 0x00#8, 0x01#8]] ∧
    (after (exec .tick (machine cfg (nacked 1)))).map Prod.snd = some [.tx [0x00#8, 0x06#8, 0x00#8, 0x01#8]] :=
  ⟨rfl, by decide +kernel, by decide +kernel⟩

/-- A transfer that ends, and events behind its end. -/
def endingRun : List Instr := [.start false aTxt octet, helloRx, .sinkfail, .tick, helloRx]

theorem witness_TransferEndsAtMostOnce : (∀ i ∈ endingRun, i.isEvent = true ∧ i ≠ .reset) ∧
    (∃ t, runOps endingRun (machine (cfgOf 14) Regs.reset) = .next t) ∧
    ((after (runOps endingRun (machine (cfgOf 14) Regs.reset))).map
      (fun p => p.2.countP Effect.isEnding)) = some 1 :=
  ⟨by decide, ⟨_, rfl⟩, by decide +kernel⟩

theorem witness_TimerExpiresAfterExactlyItsCount_ack : (machine cfg (acked 5)).regs.timerArmed = true ∧
    4 < (machine cfg (acked 5)).regs.timerCount ∧ 1 ≤ (machine cfg (acked 5)).regs.timerCount ∧
    (machine cfg (acked 5)).regs.lastKind = .ack := by decide
theorem witness_TimerExpiresAfterExactlyItsCount_nack : (machine cfg (nacked 1)).regs.timerArmed = true ∧
    0 < (machine cfg (nacked 1)).regs.timerCount ∧ 1 ≤ (machine cfg (nacked 1)).regs.timerCount ∧
    (machine cfg (nacked 1)).regs.lastKind = .nack := by decide
theorem witness_RetransmissionHasNoLimit_ack : (machine cfg (acked 5)).regs.timerArmed = true ∧
    (machine cfg (acked 5)).regs.lastKind = .ack ∧ 1 ≤ (machine cfg (acked 5)).cfg.ackTicks ∧
    (machine cfg (acked 5)).regs.timerCount = (machine cfg (acked 5)).cfg.ackTicks := by decide
theorem witness_RetransmissionHasNoLimit_nack : (machine cfg (nacked 2)).regs.timerArmed = true ∧
    (machine cfg (nacked 2)).regs.lastKind = .nack ∧ 1 ≤ (machine cfg (nacked 2)).cfg.nackTicks ∧
    (machine cfg (nacked 2)).regs.timerCount = (machine cfg (nacked 2)).cfg.nackTicks := by decide
theorem witness_NoTimerBeforeTheFirstResponse : (machine cfg fresh).inv ∧
    (machine cfg fresh).regs.lastKind = .none := ⟨fresh_inv, rfl⟩
theorem witness_SupersededResponseIsNotResent : isData helloRx 1 hello ∧ (machine (cfgOf 13) fresh).cfg.ok ∧
    (machine (cfgOf 13) fresh).inOrderFor 1 hello ∧
    decodePayload (machine (cfgOf 13) fresh).regs.carry hello = some (helloText, .c0) ∧
    (machine (cfgOf 13) fresh).cfg.finalThreshold ≤ helloText.length :=
  ⟨hello_isData, by decide, hello_inOrder 13, hello_decodes, by decide⟩

/-- V-R7 against V-R9. -/
theorem witness_CorrectedPayloadsAreIndistinguishable :
    isData (.rx ([0x00#8, 0x03#8, 0x00#8, 0x01#8] ++ helloFlipped)) 1 helloFlipped ∧ isData helloRx 1 hello ∧
    hello.length = helloFlipped.length ∧ ∀ n, n < (codewords hello).length →
      atMostOneFlip ((codewords hello).getD n 0) ((codewords helloFlipped).getD n 0) := by
  refine ⟨.inr ⟨0x00#8, 0x01#8, by decide, rfl⟩, hello_isData, by decide, fun n hn => ?_⟩
  have hn' : n < 4 := hn
  have valid : ∀ n, n < 4 → validCodeword ((codewords hello).getD n 0) := by decide +kernel
  have flip : ∀ n, n < 4 → (codewords helloFlipped).getD n 0 =
      (codewords hello).getD n 0 ^^^ BitVec.twoPow 32 ([0, 12, 23, 30].getD n 0) := by decide +kernel
  have bound : ∀ n, n < 4 → [0, 12, 23, 30].getD n 0 ≤ 30 := by decide
  exact ⟨valid n hn', .inr ⟨_, bound n hn', flip n hn'⟩⟩

/-- V-R8: codeword 2 of `HELLO` with positions 0 and 1 flipped. -/
theorem witness_DoubleFlipsNeverReachTheSink : isData helloBadRx 1 helloBad ∧ (machine cfg fresh).inOrderFor 1 helloBad ∧
    validCodeword 0x27775917#32 ∧ 0 < 1 ∧ 1 ≤ 31 ∧
    0x27775917#32 ^^^ BitVec.twoPow 32 0 ^^^ BitVec.twoPow 32 1 ∈ codewords helloBad :=
  ⟨helloBad_isData, ⟨rfl, by decide, by decide, rfl⟩, by decide +kernel, by decide, by decide, by decide +kernel⟩

/-- A rejected block and the accepted one behind it. -/
def acceptingRun : List Instr := [.start true aTxt octet, .data 1 helloBad, .tick, helloRx]

theorem witness_SinkIsTheStreamOfAcceptedGroups : Instr.reset ∉ acceptingRun ∧
    (∃ t, runOps acceptingRun (machine (cfgOf 13) Regs.reset) = .next t) ∧
    ((after (runOps acceptingRun (machine (cfgOf 13) Regs.reset))).map (fun p => p.1.state)) = some .awaiting :=
  ⟨by decide, ⟨_, rfl⟩, by decide +kernel⟩

theorem witness_StatusItemsAreNeverRead :
    exec .sinkfail (machine cfg finished) = .next (next .sinkfail (machine cfg finished)) ∧
    exec .sinkfail { machine cfg finished with
        regs := { finished with em := true, failCause := .none, errCode := 7, sinkFault := true } } =
      .next (next .sinkfail { machine cfg finished with
        regs := { finished with em := true, failCause := .none, errCode := 7, sinkFault := true } }) := ⟨rfl, rfl⟩

/-- A bit of the carry, and the first one above a short carry. -/
theorem witness_VerdictAndStatusCodes : 0 < 6 ∧ 5 < 6 ∧ (Carry.c2 true true).len = 2 := by decide

end Sys2Proof.Tests
end

section
/-! What reset leaves, item by item (`10_state.md` R34). -/

namespace Sys2Proof.Proofs

open Sys2Proof.Machine

/-- The block comes out of reset with the reset registers (`70_reset_and_hazards.md` R230). -/
@[simp] theorem stateReset_regs : State.reset.regs = Regs.reset := rfl

/-- Settles O1: the registers of the reset state are `Regs.reset`, and that is the table of R34. -/
theorem resetGivesEveryItemItsValue : Obligations.ResetGivesEveryItemItsValue := by
  unfold Obligations.ResetGivesEveryItemItsValue
  rw [stateReset_regs, Regs.reset]

end Sys2Proof.Proofs
end

section
/-! The bit and byte order of a payload (`20_memory.md` R52). -/

namespace Sys2Proof.Proofs

open Sys2Proof.Laws

/-- The bits of a byte list, read at one position. -/
theorem getD_bitsOf (bytes : List Byte) (i : Nat) :
    (bitsOf bytes).getD i false = (bytes.getD (i / 8) 0).getLsbD (i % 8) := by
  induction bytes generalizing i with
  | nil => simp
  | cons b bs ih =>
    rw [bitsOf_cons]
    by_cases hi : i < 8
    · rw [List.getD_append _ _ _ _ (by simpa using hi), getD_toBits, Nat.div_eq_of_lt hi, Nat.mod_eq_of_lt hi,
        List.getD_cons_zero]
    · obtain ⟨k, rfl⟩ : ∃ k, i = k + 8 := ⟨i - 8, by omega⟩
      rw [List.getD_append_right _ _ _ _ (by simp), length_toBits, Nat.add_sub_cancel, ih, Nat.add_mod_right,
        Nat.add_div_right k (by decide), List.getD_cons_succ]

theorem getLsbD_codewordOfBytes (b0 b1 b2 b3 : Byte) {i : Nat} (hi : i < 32) :
    (codewordOfBytes b0 b1 b2 b3).getLsbD i = ([b0, b1, b2, b3].getD (i / 8) 0).getLsbD (i % 8) := by
  have hbits : toBits b0 ++ toBits b1 ++ toBits b2 ++ toBits b3 = bitsOf [b0, b1, b2, b3] := by simp
  rw [codewordOfBytes, getLsbD_ofBits, hbits, getD_bitsOf, decide_eq_true hi, Bool.true_and]

theorem getLsbD_getD_codewords (payload : List Byte) {n i : Nat} (hn : n < (codewords payload).length)
    (hi : i < 32) :
    ((codewords payload).getD n 0).getLsbD i = (payload.getD (4 * n + i / 8) 0).getLsbD (i % 8) := by
  fun_induction codewords payload generalizing n with
  | case1 b0 b1 b2 b3 rest ih =>
    cases n with
    | zero =>
      have hbyte : (b0 :: b1 :: b2 :: b3 :: rest).getD (i / 8) 0 = [b0, b1, b2, b3].getD (i / 8) 0 :=
        List.getD_append [b0, b1, b2, b3] rest 0 (i / 8) (Nat.div_lt_of_lt_mul hi)
      rw [List.getD_cons_zero, getLsbD_codewordOfBytes _ _ _ _ hi, Nat.mul_zero, Nat.zero_add, hbyte]
    | succ n =>
      have hoffset : 4 * (n + 1) + i / 8 = 4 * n + i / 8 + 4 := by omega
      rw [List.getD_cons_succ, ih (Nat.lt_of_succ_lt_succ hn), hoffset]
      simp only [List.getD_cons_succ]
  | case2 => exact absurd hn (Nat.not_lt_zero n)

/-- Settles O38: each codeword takes the next four bytes of the payload, low bit of the first byte first. -/
theorem codewordsAreSlicedFromThePayload : Obligations.CodewordsAreSlicedFromThePayload := by
  unfold Obligations.CodewordsAreSlicedFromThePayload
  intro payload _
  refine ⟨length_codewords payload, fun n i hn hi => ?_⟩
  rw [← length_codewords payload] at hn
  exact getLsbD_getD_codewords payload hn hi

end Sys2Proof.Proofs
end

section
/-! The codec against errors (`40_codec.md` R126, R128): the four rows of R125 as rules for `decodeCodeword`, and
what the syndrome and the parity of a valid codeword say about one and about two flipped positions. -/

namespace Sys2Proof.Proofs

open Sys2Proof.Laws

/-! ### The rows of R125 -/

theorem correct_of_syndrome_zero {cw : Codeword} (hs : syndrome cw = 0#5) : correct cw (syndrome cw) = cw := by
  rw [correct, if_pos hs]

theorem decodeCodeword_of_valid {cw : Codeword} (hv : validCodeword cw) : decodeCodeword cw = .ok (extract cw) := by
  obtain ⟨hs, hp⟩ := hv
  rw [decodeCodeword, correct_of_syndrome_zero hs, hp]
  rfl

/-- The asymmetric case (R126). -/
theorem decodeCodeword_of_syndrome_zero_of_odd {cw : Codeword} (hs : syndrome cw = 0#5)
    (hp : overallParity cw = true) : decodeCodeword cw = .uncorrectable 0#5 := by
  rw [decodeCodeword, correct_of_syndrome_zero hs, if_pos hp, hs]

theorem decodeCodeword_of_syndrome_ne_zero_of_odd {cw : Codeword} (hs : syndrome cw ≠ 0#5)
    (hp : overallParity cw = true) : decodeCodeword cw = .ok (extract (correct cw (syndrome cw))) := by
  simp [decodeCodeword, overallParity_correct, hs, hp]

theorem decodeCodeword_of_syndrome_ne_zero_of_even {cw : Codeword} (hs : syndrome cw ≠ 0#5)
    (hp : overallParity cw = false) : decodeCodeword cw = .uncorrectable (syndrome cw) := by
  simp [decodeCodeword, overallParity_correct, hs, hp]

/-! ### Flipped positions -/

/-- The syndrome of a single bit is its class number, which for position 31 is 32 and vanishes (R121). -/
theorem syndrome_twoPow_eq_ofNat {p : Nat} (hp : p < 32) :
    syndrome (BitVec.twoPow 32 p) = BitVec.ofNat 5 (p + 1) := by
  rcases Nat.lt_succ_iff_lt_or_eq.1 hp with h | rfl
  · exact syndrome_twoPow p h
  · exact syndrome_twoPow_31

theorem syndrome_flip {cw : Codeword} {p : Nat} (hp : p < 32) :
    syndrome (cw ^^^ BitVec.twoPow 32 p) = syndrome cw ^^^ BitVec.ofNat 5 (p + 1) := by
  rw [syndrome_xor, syndrome_twoPow_eq_ofNat hp]

theorem overallParity_flip {cw : Codeword} {p : Nat} (hp : p < 32) :
    overallParity (cw ^^^ BitVec.twoPow 32 p) = !overallParity cw := by
  rw [overallParity_xor, overallParity_twoPow p hp, Bool.xor_true]

theorem classNumber_injective {p q : Nat} (hp : p < 32) (hq : q < 32)
    (h : BitVec.ofNat 5 (p + 1) = BitVec.ofNat 5 (q + 1)) : p = q := by
  have hnat := congrArg BitVec.toNat h
  simp only [BitVec.toNat_ofNat] at hnat
  omega

/-- The correction undoes a flip that the syndrome names (R128 (b)). -/
theorem correct_flip {cw : Codeword} {p : Nat} (hp : p < 31) :
    correct (cw ^^^ BitVec.twoPow 32 p) (BitVec.ofNat 5 (p + 1)) = cw := by
  have hnat : (BitVec.ofNat 5 (p + 1)).toNat = p + 1 := Nat.mod_eq_of_lt (by omega)
  have hne : BitVec.ofNat 5 (p + 1) ≠ 0#5 := fun h => by simp [h] at hnat
  rw [correct, if_neg hne, hnat, Nat.add_sub_cancel, flipBit, BitVec.xor_assoc, BitVec.xor_self, BitVec.xor_zero]

theorem decodeCodeword_singleFlip {cw : Codeword} {p : Nat} (hv : validCodeword cw) (hp : p < 31) :
    decodeCodeword (cw ^^^ BitVec.twoPow 32 p) = .ok (extract cw) := by
  obtain ⟨hs, hpar⟩ := hv
  have hsyn : syndrome (cw ^^^ BitVec.twoPow 32 p) = BitVec.ofNat 5 (p + 1) := by
    rw [syndrome_flip (by omega), hs, BitVec.zero_xor]
  have hne : syndrome (cw ^^^ BitVec.twoPow 32 p) ≠ 0#5 := fun h => by
    have hp31 : p = 31 := classNumber_injective (by omega) (by decide) (hsyn.symm.trans h)
    omega
  rw [decodeCodeword_of_syndrome_ne_zero_of_odd hne (by rw [overallParity_flip (by omega), hpar, Bool.not_false]),
    hsyn, correct_flip hp]

/-- Two flips keep the parity even, and their class numbers do not cancel: the last row of R125. -/
theorem decodeCodeword_doubleFlip {cw : Codeword} {p q : Nat} (hv : validCodeword cw) (hpq : p < q) (hq : q < 32) :
    decodeCodeword (cw ^^^ BitVec.twoPow 32 p ^^^ BitVec.twoPow 32 q) =
      .uncorrectable (BitVec.ofNat 5 (p + 1) ^^^ BitVec.ofNat 5 (q + 1)) := by
  obtain ⟨hs, hpar⟩ := hv
  have hsyn : syndrome (cw ^^^ BitVec.twoPow 32 p ^^^ BitVec.twoPow 32 q) =
      BitVec.ofNat 5 (p + 1) ^^^ BitVec.ofNat 5 (q + 1) := by
    rw [syndrome_flip hq, syndrome_flip (by omega), hs, BitVec.zero_xor]
  have hne : BitVec.ofNat 5 (p + 1) ^^^ BitVec.ofNat 5 (q + 1) ≠ 0#5 := fun h => by
    have := classNumber_injective (by omega) hq (BitVec.xor_eq_zero_iff.1 h)
    omega
  have heven : overallParity (cw ^^^ BitVec.twoPow 32 p ^^^ BitVec.twoPow 32 q) = false := by
    rw [overallParity_flip hq, overallParity_flip (by omega), Bool.not_not, hpar]
  rw [decodeCodeword_of_syndrome_ne_zero_of_even (hsyn ▸ hne) heven, hsyn]

/-! ### The obligations -/

/-- Settles O34: position 31 lies in no class, so its flip leaves syndrome 0 and makes the parity odd. -/
theorem asymmetricCaseIsRejected : Obligations.AsymmetricCaseIsRejected := by
  unfold Obligations.AsymmetricCaseIsRejected
  refine ⟨fun cw hs hp => ⟨correct_of_syndrome_zero hs, decodeCodeword_of_syndrome_zero_of_odd hs hp⟩, ?_⟩
  rintro cw ⟨hs, hp⟩
  apply decodeCodeword_of_syndrome_zero_of_odd
  · rw [syndrome_flip (by decide), hs]; rfl
  · rw [overallParity_flip (by decide), hp]; rfl

/-- Settles O35: the syndrome is the class number of the flipped position, and the correction undoes the flip. -/
theorem singleFlipsAreCorrected : Obligations.SingleFlipsAreCorrected := by
  unfold Obligations.SingleFlipsAreCorrected
  intro cw p hv hp
  exact decodeCodeword_singleFlip hv (by omega)

/-- Settles O36: even parity with a syndrome that is not 0. -/
theorem doubleFlipsAreDetected : Obligations.DoubleFlipsAreDetected := by
  unfold Obligations.DoubleFlipsAreDetected
  intro cw p q hv hpq hq
  exact ⟨_, decodeCodeword_doubleFlip hv hpq (by omega)⟩

end Sys2Proof.Proofs
end

section
/-! The valid codewords (`40_codec.md` R127): each group has one, found by placing the group and then choosing the
check positions, and two with the same group are equal because each check position is the only one in its class
that the group does not fix. -/

namespace Sys2Proof.Proofs

open Sys2Proof.Laws

/-! ### Extraction is linear -/

theorem extract_xor (a b : Codeword) : extract (a ^^^ b) = extract a ^^^ extract b := by
  apply BitVec.eq_of_getLsbD_eq
  intro m hm
  rw [BitVec.getLsbD_xor, getLsbD_extract _ hm, getLsbD_extract _ hm, getLsbD_extract _ hm, BitVec.getLsbD_xor]

theorem getLsbD_of_extract_eq_zero {cw : Codeword} (h : extract cw = 0#26) {i : Nat} (hi : i ∈ dataPos) :
    cw.getLsbD i = false := by
  obtain ⟨j, hj, rfl⟩ := List.getElem_of_mem hi
  have hj26 : j < 26 := hj
  have hbit := getLsbD_extract cw (m := 25 - j) (by omega)
  rw [h, BitVec.getLsbD_zero, show 25 - (25 - j) = j by omega, List.getD_eq_getElem _ _ hj] at hbit
  exact hbit.symm

/-! ### The valid codeword of a group -/

/-- The codeword that holds the group in its data positions (R124) and zeros in its check positions. -/
def placeGroup (g : Group) : Codeword :=
  ofBits 32 ((List.range 32).map fun i => decide (i ∈ dataPos) && g.getLsbD (25 - dataPos.idxOf i))

/-- The codeword that holds these syndrome bits in the check positions `2^j - 1` and zeros elsewhere (R127). -/
def checkBits (syn : BitVec 5) : Codeword :=
  (List.range 5).foldl (fun cw j => if syn.getLsbD j then flipBit cw (2 ^ j - 1) else cw) 0#32

/-- Position 31 inverted if that makes the overall parity even. -/
def evenParity (cw : Codeword) : Codeword := if overallParity cw then flipBit cw 31 else cw

/-- `V(g)`, the valid codeword of the group (R127). -/
def codewordOfGroup (g : Group) : Codeword := evenParity (placeGroup g ^^^ checkBits (syndrome (placeGroup g)))

theorem getLsbD_placeGroup (g : Group) {i : Nat} (hi : i < 32) :
    (placeGroup g).getLsbD i = (decide (i ∈ dataPos) && g.getLsbD (25 - dataPos.idxOf i)) := by
  rw [placeGroup, getLsbD_ofBits, List.getD_eq_getElem _ _ (by simpa using hi)]
  simp [hi]

theorem dataPos_nodup : dataPos.Nodup := by decide

theorem dataPos_lt : ∀ i ∈ dataPos, i < 32 := by decide

@[simp] theorem extract_placeGroup (g : Group) : extract (placeGroup g) = g := by
  apply BitVec.eq_of_getLsbD_eq
  intro m hm
  have hlt : 25 - m < dataPos.length := show 25 - m < 26 by omega
  have hmem : dataPos[25 - m] ∈ dataPos := List.getElem_mem hlt
  rw [getLsbD_extract _ hm, List.getD_eq_getElem _ _ hlt, getLsbD_placeGroup g (dataPos_lt _ hmem),
    dataPos_nodup.idxOf_getElem, decide_eq_true hmem, Bool.true_and, show 25 - (25 - m) = m by omega]

@[simp] theorem syndrome_checkBits : ∀ syn : BitVec 5, syndrome (checkBits syn) = syn := by decide +kernel

@[simp] theorem extract_checkBits : ∀ syn : BitVec 5, extract (checkBits syn) = 0#26 := by decide +kernel

theorem syndrome_evenParity (cw : Codeword) : syndrome (evenParity cw) = syndrome cw := by
  unfold evenParity
  split
  · rw [flipBit, syndrome_xor, syndrome_twoPow_31, BitVec.xor_zero]
  · rfl

theorem overallParity_evenParity (cw : Codeword) : overallParity (evenParity cw) = false := by
  unfold evenParity
  split
  · rename_i h
    rw [flipBit, overallParity_flip (by decide), h, Bool.not_true]
  · rename_i h
    exact Bool.eq_false_iff.2 h

theorem extract_twoPow_31 : extract (BitVec.twoPow 32 31) = 0#26 := by decide +kernel

theorem extract_evenParity (cw : Codeword) : extract (evenParity cw) = extract cw := by
  unfold evenParity
  split
  · rw [flipBit, extract_xor, extract_twoPow_31, BitVec.xor_zero]
  · rfl

theorem validCodeword_codewordOfGroup (g : Group) : validCodeword (codewordOfGroup g) := by
  refine ⟨?_, overallParity_evenParity _⟩
  rw [codewordOfGroup, syndrome_evenParity, syndrome_xor, syndrome_checkBits, BitVec.xor_self]

theorem extract_codewordOfGroup (g : Group) : extract (codewordOfGroup g) = g := by
  rw [codewordOfGroup, extract_evenParity, extract_xor, extract_placeGroup, extract_checkBits, BitVec.xor_zero]

/-! ### A valid codeword is fixed by its group -/

/-- Where only one element can count, it is the parity. -/
theorem parity_map_eq_of_unique {α : Type} {f : α → Bool} {l : List α} {a : α} (hl : l.Nodup) (ha : a ∈ l)
    (hf : ∀ x ∈ l, x ≠ a → f x = false) : parity (l.map f) = f a := by
  induction l with
  | nil => cases ha
  | cons x l ih =>
    obtain ⟨hx, hl⟩ := List.nodup_cons.1 hl
    rw [List.map_cons, parity_cons]
    rcases List.mem_cons.1 ha with rfl | ha
    · have hrest : ∀ y ∈ l, f y = false := fun y hy =>
        hf y (List.mem_cons_of_mem _ hy) fun h => hx (h ▸ hy)
      rw [parity_map_eq_countP, List.countP_eq_zero.2 fun y hy => by simp [hrest y hy]]
      exact Bool.xor_false _
    · rw [hf x (List.mem_cons_self ..) fun h => hx (h ▸ ha), Bool.false_xor]
      exact ih hl ha fun y hy => hf y (List.mem_cons_of_mem _ hy)

/-- Check position `2^j - 1` lies in class `2^j`, and every other position of the class is a data position (R127). -/
theorem mem_classPositions_check : ∀ j, j < 5 → 2 ^ j - 1 ∈ classPositions (2 ^ j) ∧
    ∀ i ∈ classPositions (2 ^ j), i ≠ 2 ^ j - 1 → i ∈ dataPos := by
  decide +kernel

/-- Every position is a data position, one of the five check positions, or position 31 (R8). -/
theorem position_cases : ∀ i, i < 32 → i ∈ dataPos ∨ (∃ j, j < 5 ∧ i = 2 ^ j - 1) ∨ i = 31 := by
  decide +kernel

theorem getLsbD_check_of_extract_eq_zero {cw : Codeword} (h : extract cw = 0#26) {j : Nat} (hj : j < 5) :
    cw.getLsbD (2 ^ j - 1) = (syndrome cw).getLsbD j := by
  obtain ⟨hmem, hdata⟩ := mem_classPositions_check j hj
  rw [getLsbD_syndrome cw hj, classParity]
  exact (parity_map_eq_of_unique (List.nodup_range.filter _) hmem fun i hi hne =>
    getLsbD_of_extract_eq_zero h (hdata i hi hne)).symm

/-- A valid codeword without data bits is 0: each class, and then the whole, leaves one position to account for. -/
theorem eq_zero_of_valid_of_extract_eq_zero {cw : Codeword} (hv : validCodeword cw) (h : extract cw = 0#26) :
    cw = 0#32 := by
  obtain ⟨hs, hp⟩ := hv
  have hbelow : ∀ i, i < 32 → i ≠ 31 → cw.getLsbD i = false := by
    intro i hi hne
    rcases position_cases i hi with hdata | ⟨j, hj, rfl⟩ | h31
    · exact getLsbD_of_extract_eq_zero h hdata
    · rw [getLsbD_check_of_extract_eq_zero h hj, hs, BitVec.getLsbD_zero]
    · exact absurd h31 hne
  have htop : overallParity cw = cw.getLsbD 31 :=
    parity_map_eq_of_unique List.nodup_range (by decide) fun i hi => hbelow i (List.mem_range.1 hi)
  apply BitVec.eq_of_getLsbD_eq
  intro i hi
  rw [BitVec.getLsbD_zero]
  by_cases h31 : i = 31
  · rw [h31, ← htop, hp]
  · exact hbelow i hi h31

theorem validCodeword_xor {a b : Codeword} (ha : validCodeword a) (hb : validCodeword b) :
    validCodeword (a ^^^ b) := by
  obtain ⟨has, hap⟩ := ha
  obtain ⟨hbs, hbp⟩ := hb
  exact ⟨by rw [syndrome_xor, has, hbs, BitVec.xor_self], by rw [overallParity_xor, hap, hbp, Bool.xor_self]⟩

theorem validCodeword_ext {a b : Codeword} (ha : validCodeword a) (hb : validCodeword b)
    (h : extract a = extract b) : a = b := by
  apply BitVec.xor_eq_zero_iff.1
  apply eq_zero_of_valid_of_extract_eq_zero (validCodeword_xor ha hb)
  rw [extract_xor, h, BitVec.xor_self]

/-- Settles O37: `codewordOfGroup g` is the valid codeword of `g`. -/
theorem everyGroupHasOneValidCodeword : Obligations.EveryGroupHasOneValidCodeword := by
  unfold Obligations.EveryGroupHasOneValidCodeword
  intro g
  have hv := validCodeword_codewordOfGroup g
  have hg := extract_codewordOfGroup g
  refine ⟨codewordOfGroup g, hv, ?_, fun cw' hv' hg' => validCodeword_ext hv' hv (hg'.trans hg.symm)⟩
  rw [decodeCodeword_of_valid hv, hg]

end Sys2Proof.Proofs
end

section
/-! What the codec's answers let the machine see of a payload (`40_codec.md` R128, R129; `42_transfer_fsm.md`
R169). -/

namespace Sys2Proof.Proofs

open Sys2Proof.Machine Sys2Proof.Laws

/-! ### Payloads that decode alike -/

theorem decodeLoop_congr {cws cws' : List Codeword} (h : cws.map decodeCodeword = cws'.map decodeCodeword)
    (k : Work) : decodeLoop k cws = decodeLoop k cws' := by
  induction cws generalizing k cws' with
  | nil => rw [List.map_eq_nil_iff.1 h.symm]
  | cons cw rest ih =>
    obtain ⟨cw', rest', rfl, hhead, hrest⟩ := List.map_eq_cons_iff.1 h.symm
    rw [decodeLoop, decodeLoop, hhead]
    cases decodeCodeword cw with
    | uncorrectable syn => rfl
    | ok g => exact ih hrest.symm _

theorem decodePayload_congr {a b : List Byte}
    (h : (codewords a).map decodeCodeword = (codewords b).map decodeCodeword) (c : Carry) :
    decodePayload c a = decodePayload c b := by
  rw [decodePayload, decodePayload, decodeLoop_congr h]

theorem payloadOk_congr {a b : List Byte} (hlen : a.length = b.length) : payloadOk a = payloadOk b := by
  rw [payloadOk, payloadOk, hlen]

theorem inOrderData_congr {a b : List Byte} {s : State}
    (hd : decodePayload s.regs.carry a = decodePayload s.regs.carry b) (blk : Half) :
    inOrderData blk a s = inOrderData blk b s := by
  rw [inOrderData, inOrderData, hd]

/-- A received payload is used through its length and its decode alone (R164 to R169). -/
theorem receiveData_congr {a b : List Byte} {s : State} (hlen : a.length = b.length)
    (hd : decodePayload s.regs.carry a = decodePayload s.regs.carry b) (blk : Half) :
    receiveData blk a s = receiveData blk b s := by
  rw [receiveData, receiveData, payloadOk_congr hlen, inOrderData_congr hd]

theorem decodeCodeword_of_atMostOneFlip {clean got : Codeword} (h : atMostOneFlip clean got) :
    decodeCodeword got = decodeCodeword clean := by
  obtain ⟨hv, rfl | ⟨p, hp, rfl⟩⟩ := h
  · rfl
  · rw [decodeCodeword_singleFlip hv (by omega), decodeCodeword_of_valid hv]

theorem map_decodeCodeword_of_atMostOneFlip {clean got : List Codeword} (hlen : clean.length = got.length)
    (h : ∀ n, n < clean.length → atMostOneFlip (clean.getD n 0) (got.getD n 0)) :
    got.map decodeCodeword = clean.map decodeCodeword := by
  apply List.ext_getElem (by simp [hlen])
  intro n hn hn'
  simp only [List.length_map] at hn hn'
  have hflip := h n hn'
  rw [List.getD_eq_getElem _ _ hn', List.getD_eq_getElem _ _ hn] at hflip
  rw [List.getElem_map, List.getElem_map, decodeCodeword_of_atMostOneFlip hflip]

/-! ### The rejected block -/

theorem decodePayload_of_doubleFlip {cw : Codeword} {p q : Nat} {payload : List Byte} (hv : validCodeword cw)
    (hpq : p < q) (hq : q < 32) (h : cw ^^^ BitVec.twoPow 32 p ^^^ BitVec.twoPow 32 q ∈ codewords payload)
    (c : Carry) : decodePayload c payload = none :=
  (decodePayload_eq_none_iff c payload).2 ⟨_, h, _, decodeCodeword_doubleFlip hv hpq hq⟩

theorem receiveData_of_decode_none {s : State} {blk : Half} {payload : List Byte} (ho : s.inOrderFor blk payload)
    (hd : decodePayload s.regs.carry payload = none) :
    receiveData blk payload s = rejectBlock blk (s.upd Regs.disarm) := by
  rw [receiveData_of_inOrderFor ho, inOrderData, hd]

/-! ### The obligations -/

/-- Settles O55: the two payloads have the same length and decode to the same groups, and nothing else of them is
read. -/
theorem correctedPayloadsAreIndistinguishable : Obligations.CorrectedPayloadsAreIndistinguishable := by
  unfold Obligations.CorrectedPayloadsAreIndistinguishable
  intro s clean got hlen hflips
  have hcws : (codewords clean).length = (codewords got).length := by
    rw [length_codewords, length_codewords, hlen]
  have hdecode : ∀ c, decodePayload c got = decodePayload c clean :=
    decodePayload_congr (map_decodeCodeword_of_atMostOneFlip hcws hflips)
  refine ⟨fun blk i j hi hj => ?_, ?_⟩
  · rw [exec_isData hi, exec_isData hj, receiveData_congr hlen.symm (hdecode s.regs.carry)]
  · show execRsmPayload got s = execRsmPayload clean s
    rw [execRsmPayload, execRsmPayload, hdecode]

/-- Settles O56: the decode fails, so the block is rejected, and rejection writes the response and the timer
alone. -/
theorem doubleFlipsNeverReachTheSink : Obligations.DoubleFlipsNeverReachTheSink := by
  unfold Obligations.DoubleFlipsNeverReachTheSink
  intro s blk payload i cw p q hi ho hv hpq hq hmem
  have hd := decodePayload_of_doubleFlip hv hpq (by omega) hmem s.regs.carry
  refine ⟨_, exec_isData hi s, ?_⟩
  rw [receiveData_of_decode_none ho hd, rejectBlock_eq]
  exact ⟨rfl, by simp [State.sink, sinkOf], rfl, rfl, rfl⟩

end Sys2Proof.Proofs
end

section
/-! The stream view of the reassembler (`41_reassembler.md` R148, R149): the bits of the sink with the carry behind
them grow by the group bits of each accepted block, and by nothing else until a final block is stripped. -/

namespace Sys2Proof.Proofs

open Sys2Proof.Machine Sys2Proof.Laws

/-! ### The length of a decoded payload -/

theorem length_groupBits_of_decodePayload {c w : Carry} {payload bytes : List Byte}
    (h : decodePayload c payload = some (bytes, w)) :
    (groupBits (codewords payload)).length = 26 * (payload.length / 4) := by
  obtain ⟨k, hk, -⟩ := Option.map_eq_some_iff.1 h
  rw [length_groupBits hk, length_codewords]

/-- The stream equation of a payload, counted in bits. -/
theorem decodePayload_bit_count {c w : Carry} {payload bytes : List Byte}
    (h : decodePayload c payload = some (bytes, w)) :
    8 * bytes.length + w.len = c.len + 26 * (payload.length / 4) := by
  have hlen := congrArg List.length (decodePayload_stream h)
  rwa [List.length_append, List.length_append, length_bitsOf, length_groupBits_of_decodePayload h] at hlen

/-- Settles O42: the new carry is shorter than a byte, so the bit count is a division by 8 with remainder. -/
theorem decodedLengthIsDetermined : Obligations.DecodedLengthIsDetermined := by
  unfold Obligations.DecodedLengthIsDetermined
  intro c w payload bytes hmax _ hd
  have hcount := decodePayload_bit_count hd
  have hc := carry_len_legal c
  have hw := carry_len_legal w
  omega

/-! ### The stream of a state -/

/-- The bits that have reached the sink, and behind them those held back in the carry (R149). -/
def streamBits (s : State) : List Bool := bitsOf s.sink ++ s.regs.carry.bits

theorem sink_of_effects_append {s t : State} {new : List Effect} (he : t.effects = s.effects ++ new) :
    t.sink = s.sink ++ sinkOf new := by
  rw [State.sink, he, sinkOf_append, State.sink]

theorem streamBits_of_effects_append {s t : State} {new : List Effect} (he : t.effects = s.effects ++ new) :
    streamBits t = bitsOf s.sink ++ (bitsOf (sinkOf new) ++ t.regs.carry.bits) := by
  rw [streamBits, sink_of_effects_append he, bitsOf_append, List.append_assoc]

/-- An accepted block that is not the final one puts its group bits behind the stream (R167). -/
theorem streamBits_acceptBlock {s : State} {payload bytes : List Byte} {w : Carry}
    (hd : decodePayload s.regs.carry payload = some (bytes, w)) (blk : Half) :
    streamBits (acceptBlock blk bytes w (s.upd Regs.disarm)) = streamBits s ++ groupBits (codewords payload) := by
  have hsink : sinkOf [.sinkAppend bytes, .tx (ackBytes blk)] = bytes := List.append_nil bytes
  have hcarry : (acceptBlock blk bytes w (s.upd Regs.disarm)).regs.carry = w := by rw [acceptBlock_eq]; rfl
  rw [streamBits_of_effects_append (s := s) (by rw [acceptBlock_eq]; rfl), hsink, hcarry, decodePayload_stream hd,
    streamBits, List.append_assoc]

/-! ### The bits accepted along a run -/

theorem acceptedBits_cons {i : Instr} {s t : State} (he : exec i s = .next t) (rest : List Instr) :
    acceptedBits (i :: rest) s = acceptedBits [i] s ++ acceptedBits rest t := by
  simp [acceptedBits, he]

theorem acceptedBits_of_not_accepted {i : Instr} {s t : State} (he : exec i s = .next t)
    (ha : acceptedPayload i s = none) : acceptedBits [i] s = [] := by
  simp [acceptedBits, he, ha]

theorem acceptedBits_of_accepted {i : Instr} {s t : State} {payload : List Byte} (he : exec i s = .next t)
    (ha : acceptedPayload i s = some payload) : acceptedBits [i] s = groupBits (codewords payload) := by
  simp [acceptedBits, he, ha]

/-! ### One operation -/

/-- An operation that accepts no block, appends nothing to the sink and keeps the carry leaves the stream as it is. -/
theorem streamBits_of_not_accepted {i : Instr} {s t : State} {new : List Effect} (he : exec i s = .next t)
    (ha : acceptedPayload i s = none) (hnew : t.effects = s.effects ++ new) (hsink : sinkOf new = [])
    (hcarry : t.regs.carry = s.regs.carry) : streamBits t = streamBits s ++ acceptedBits [i] s := by
  rw [streamBits_of_effects_append hnew, hsink, hcarry, acceptedBits_of_not_accepted he ha, List.append_nil]
  rfl

/-- The stream grows by the group bits of the block an operation makes the machine accept. RESET drops the carry
(R242) and the final block loses its zero bytes (R168), so both stay out. -/
theorem exec_streamBits {i : Instr} {s t : State} (he : exec i s = .next t) (hi : i ≠ .reset)
    (hdone : t.regs.state ≠ .done) : streamBits t = streamBits s ++ acceptedBits [i] s := by
  cases exec_cases he with
  | same ha hr hnew =>
    exact streamBits_of_not_accepted (new := []) he ha (by rw [hnew, List.append_nil]) rfl (by rw [hr])
  | sent bytes ha _ hr hnew => exact streamBits_of_not_accepted he ha hnew rfl (by rw [hr])
  | start em fname mode hi' _ ht => subst hi' ht; exact streamBits_of_not_accepted he rfl rfl rfl rfl
  | accept blk payload bytes w _ ha _ hd _ ht =>
    rw [acceptedBits_of_accepted he ha, ht, streamBits_acceptBlock hd]
  | final blk payload bytes w _ _ _ _ _ ht => exact absurd (by rw [ht, finishTransfer_eq]; rfl) hdone
  | reject blk payload _ ha _ _ ht =>
    rw [rejectBlock_eq] at ht; subst ht; exact streamBits_of_not_accepted he ha rfl rfl rfl
  | error code msg _ ha _ ht =>
    rw [protocolError_eq] at ht; subst ht; exact streamBits_of_not_accepted he ha rfl rfl rfl
  | count hi' _ _ ht =>
    subst hi' ht; exact streamBits_of_not_accepted he rfl (List.append_nil _).symm rfl rfl
  | expireNone hi' _ _ _ ht =>
    subst hi' ht; exact streamBits_of_not_accepted he rfl (List.append_nil _).symm rfl rfl
  | expireAck hi' _ _ _ ht => subst hi' ht; exact streamBits_of_not_accepted he rfl rfl rfl rfl
  | expireNack hi' _ _ _ ht => subst hi' ht; exact streamBits_of_not_accepted he rfl rfl rfl rfl
  | sinkAwaiting hi' _ ht =>
    subst hi' ht; exact streamBits_of_not_accepted he rfl (List.append_nil _).symm rfl rfl
  | sinkLater hi' _ _ ht =>
    subst hi' ht; exact streamBits_of_not_accepted he rfl (List.append_nil _).symm rfl rfl
  | reset hi' _ => exact absurd hi' hi

/-! ### Runs -/

/-- Nothing but RESET leaves DONE (`42_transfer_fsm.md` R182, R183). -/
theorem exec_keeps_done {i : Instr} {s t : State} (he : exec i s = .next t) (hi : i ≠ .reset)
    (hs : s.regs.state = .done) : t.regs.state = .done := by
  have hawaiting : s.regs.state ≠ .awaiting := by rw [hs]; decide
  cases exec_cases he with
  | same _ hr _ => rw [hr, hs]
  | sent _ _ _ hr _ => rw [hr, hs]
  | start _ _ _ _ hidle _ => rw [hs] at hidle; cases hidle
  | accept _ _ _ _ _ _ ho _ _ _ => exact absurd ho.1 hawaiting
  | final _ _ _ _ _ _ ho _ _ _ => exact absurd ho.1 hawaiting
  | reject _ _ _ _ ho _ _ => exact absurd ho.1 hawaiting
  | error _ _ _ _ h _ => exact absurd h hawaiting
  | count _ _ _ ht => rw [ht]; exact hs
  | expireNone _ _ _ _ ht => rw [ht]; exact hs
  | expireAck _ _ _ _ ht => rw [ht]; exact hs
  | expireNack _ _ _ _ ht => rw [ht]; exact hs
  | sinkAwaiting _ h _ => exact absurd h hawaiting
  | sinkLater _ _ _ ht => rw [ht]; exact hs
  | reset h _ => exact absurd h hi

theorem runOps_keeps_done {ops : List Instr} {s t : State} (hreset : .reset ∉ ops) (h : runOps ops s = .next t)
    (hs : s.regs.state = .done) : t.regs.state = .done := by
  induction ops generalizing s with
  | nil => cases h; exact hs
  | cons i rest ih =>
    obtain ⟨u, hu, hrest⟩ := runOps_cons h
    obtain ⟨hi, hreset⟩ := List.ne_and_not_mem_of_not_mem_cons hreset
    exact ih hreset hrest (exec_keeps_done hu (Ne.symm hi) hs)

/-- A run that does not end in DONE has not passed through it, so each of its operations keeps to the stream. -/
theorem runOps_streamBits {ops : List Instr} {s t : State} (hreset : .reset ∉ ops) (h : runOps ops s = .next t)
    (hdone : t.regs.state ≠ .done) : streamBits t = streamBits s ++ acceptedBits ops s := by
  induction ops generalizing s with
  | nil => cases h; exact (List.append_nil _).symm
  | cons i rest ih =>
    obtain ⟨u, hu, hrest⟩ := runOps_cons h
    obtain ⟨hi, hreset⟩ := List.ne_and_not_mem_of_not_mem_cons hreset
    have hudone : u.regs.state ≠ .done := fun hs => hdone (runOps_keeps_done hreset hrest hs)
    rw [ih hreset hrest, exec_streamBits hu (Ne.symm hi) hudone, acceptedBits_cons hu rest, List.append_assoc]

/-- Settles O57, by induction on the run: a run that ends in AWAITING has stripped no final block. -/
theorem sinkIsTheStreamOfAcceptedGroups : Obligations.SinkIsTheStreamOfAcceptedGroups := by
  unfold Obligations.SinkIsTheStreamOfAcceptedGroups
  intro ops s t hreset h ht
  exact runOps_streamBits hreset h (by rw [ht]; decide)

end Sys2Proof.Proofs
end

section
/-! The boundary events (`42_transfer_fsm.md` R161, R173 to R177): a rule for each branch of the operation an event
runs, and what the events of the timer, the sink and the host therefore do. -/

namespace Sys2Proof.Proofs

open Sys2Proof.Machine Sys2Proof.Laws

/-! ### The operation an event runs -/

theorem exec_start (em : Bool) (fname mode : List Byte) (s : State) :
    exec (.start em fname mode) s = .next (startTransfer em fname mode s) := rfl

theorem exec_tick (s : State) : exec .tick s = .next (countDown s) := rfl

theorem exec_sinkfail (s : State) : exec .sinkfail s = .next (sinkFailure s) := rfl

theorem exec_reset (s : State) : exec .reset s = .next (restart s) := rfl

/-! ### START and RESET -/

/-- The opcode of the request is 1 or 2 by `em` (R178). -/
theorem requestBytes_eq (em : Bool) (fname mode : List Byte) :
    requestBytes em fname mode =
      [0x00#8, if em then 0x02#8 else 0x01#8] ++ fname ++ [0x00#8] ++ mode ++ [0x00#8] := by
  cases em <;> rfl

/-- Settles O14: the two branches of `startTransfer`. -/
theorem startSendsTheRequestFromIdle : Obligations.StartSendsTheRequestFromIdle := by
  unfold Obligations.StartSendsTheRequestFromIdle
  intro s em fname mode
  rw [exec_start, ← requestBytes_eq]
  rcases startTransfer_cases em fname mode s with ⟨hs, h⟩ | ⟨hs, h⟩
  · exact ⟨fun hidle => absurd hidle hs, fun _ => by rw [h]⟩
  · exact ⟨fun _ => by rw [h]; rfl, fun hother => absurd hs hother⟩

theorem restart_eq (s : State) : restart s = { s with regs := Regs.reset } := rfl

/-- `state` changes in IDLE and in AWAITING only, RESET apart (R183). -/
theorem exec_keeps_state {i : Instr} {s t : State} (he : exec i s = .next t) (hi : i ≠ .reset)
    (hidle : s.regs.state ≠ .idle) (hawaiting : s.regs.state ≠ .awaiting) : t.regs.state = s.regs.state := by
  cases exec_cases he with
  | same _ hr _ => rw [hr]
  | sent _ _ _ hr _ => rw [hr]
  | start _ _ _ _ h _ => exact absurd h hidle
  | accept _ _ _ _ _ _ ho _ _ _ => exact absurd ho.1 hawaiting
  | final _ _ _ _ _ _ ho _ _ _ => exact absurd ho.1 hawaiting
  | reject _ _ _ _ ho _ _ => exact absurd ho.1 hawaiting
  | error _ _ _ _ h _ => exact absurd h hawaiting
  | count _ _ _ ht => rw [ht]; rfl
  | expireNone _ _ _ _ ht => rw [ht]; rfl
  | expireAck _ _ _ _ ht => rw [ht]; rfl
  | expireNack _ _ _ _ ht => rw [ht]; rfl
  | sinkAwaiting _ h _ => exact absurd h hawaiting
  | sinkLater _ _ _ ht => rw [ht]; rfl
  | reset h _ => exact absurd h hi

/-- Settles O2: `restart` writes `Regs.reset`, and no other operation changes `state` outside IDLE and AWAITING. -/
theorem resetEventRestoresEveryItem : Obligations.ResetEventRestoresEveryItem := by
  unfold Obligations.ResetEventRestoresEveryItem
  refine ⟨fun s => by rw [exec_reset, restart_eq, Regs.reset], fun i s t he hend hchange => ?_⟩
  have hs : s.regs.state ≠ .idle ∧ s.regs.state ≠ .awaiting := by
    rcases hend with h | h <;> rw [h] <;> decide
  by_contra hi
  exact hchange (exec_keeps_state he hi hs.1 hs.2)

/-! ### NOP -/

/-- Settles O13: the three codes are the ones `decodeEvent` names no other event for. -/
theorem nopAndReservedCodesChangeNothing : Obligations.NopAndReservedCodesChangeNothing := by
  unfold Obligations.NopAndReservedCodesChangeNothing
  refine ⟨fun s => rfl, fun code lines hcode => ?_⟩
  rcases hcode with rfl | rfl | rfl <;> rfl

/-! ### SINKFAIL -/

/-- Settles O16: the three branches of `sinkFailure`. -/
theorem sinkFailureIsRecordedAndEndsATransfer : Obligations.SinkFailureIsRecordedAndEndsATransfer := by
  unfold Obligations.SinkFailureIsRecordedAndEndsATransfer
  intro s
  rw [exec_sinkfail]
  rcases sinkFailure_cases s with ⟨hs, h⟩ | ⟨hs, h⟩ | ⟨hs, hs', h⟩
  · exact ⟨fun _ => by rw [h], fun h' => absurd (hs.symm.trans h') (by decide), fun h' => absurd hs h'⟩
  · exact ⟨fun h' => absurd (hs.symm.trans h') (by decide), fun _ => by rw [h]; rfl, fun _ h' => absurd hs h'⟩
  · exact ⟨fun h' => absurd h' hs, fun h' => absurd h' hs', fun _ _ => by rw [h]; rfl⟩

/-! ### TICK -/

theorem countDown_of_disarmed {s : State} (h : s.regs.timerArmed = false) : countDown s = s := by
  simp [countDown, h]

theorem countDown_of_two_le {s : State} (h : s.regs.timerArmed = true) (hc : 2 ≤ s.regs.timerCount) :
    countDown s = s.upd (fun r => r.setCount (r.timerCount - 1)) := by
  rw [countDown, if_pos h, if_neg (by omega)]

/-- The tick that brings the count to 0 is the expiry (R174). -/
theorem countDown_of_one {s : State} (h : s.regs.timerArmed = true) (hc : s.regs.timerCount = 1) :
    countDown s = timerExpiry (s.upd (fun r => r.setCount 0)) := by
  rw [countDown, if_pos h, if_pos (by omega)]

theorem timerExpiry_of_ack {s : State} (h : s.regs.lastKind = .ack) :
    timerExpiry s = (sendAck s.regs.lastBlk s).upd (fun r => r.setCount s.cfg.ackTicks) := by
  rw [timerExpiry, h]

theorem timerExpiry_of_nack {s : State} (h : s.regs.lastKind = .nack) :
    timerExpiry s = (sendNack s.regs.lastBlk s).upd (fun r => r.setCount s.cfg.nackTicks) := by
  rw [timerExpiry, h]

/-- Settles O15: the branches of `countDown`, and for the tick that reaches 0 the two lines of R174. -/
theorem tickCountsDownAndExpires : Obligations.TickCountsDownAndExpires := by
  unfold Obligations.TickCountsDownAndExpires
  intro s
  rw [exec_tick]
  refine ⟨fun ha => ?_, fun ha hc => ?_, fun ha hc hk => ?_, fun ha hc hk => ?_⟩
  · rw [countDown_of_disarmed ha]
  · rw [countDown_of_two_le ha hc]; rfl
  · rw [countDown_of_one ha hc]; exact congrArg Host.Outcome.next (timerExpiry_of_ack hk)
  · rw [countDown_of_one ha hc]; exact congrArg Host.Outcome.next (timerExpiry_of_nack hk)

theorem runOps_replicate_of_exec_eq_self {i : Instr} {s : State} (h : exec i s = .next s) (n : Nat) :
    runOps (List.replicate n i) s = .next s := by
  induction n with
  | zero => rfl
  | succ n ih => rw [List.replicate_succ, runOps, h]; exact ih

/-- An armed timer has a response to resend (`10_state.md` R33 (b)). -/
theorem timerArmed_eq_false_of_lastKind_none {s : State} (hinv : s.inv) (hk : s.regs.lastKind = .none) :
    s.regs.timerArmed = false := by
  obtain ⟨-, -, harmed, -⟩ := hinv
  by_contra h
  obtain ⟨-, hack | hnack⟩ := harmed (Bool.of_not_eq_false h)
  · exact absurd (hk.symm.trans hack) (by decide)
  · exact absurd (hk.symm.trans hnack) (by decide)

/-- Settles O53: the timer is not armed, so a tick keeps the state, and then any number of ticks does. -/
theorem noTimerBeforeTheFirstResponse : Obligations.NoTimerBeforeTheFirstResponse := by
  unfold Obligations.NoTimerBeforeTheFirstResponse
  intro s n hinv hk
  apply runOps_replicate_of_exec_eq_self
  rw [exec_tick, countDown_of_disarmed (timerArmed_eq_false_of_lastKind_none hinv hk)]

end Sys2Proof.Proofs
end

section
/-! The reception of a datagram (`42_transfer_fsm.md` R162 to R172): what is discarded, and what the in-order DATA
block and the protocol ERROR do. -/

namespace Sys2Proof.Proofs

open Sys2Proof.Machine Sys2Proof.Laws

theorem exec_rx (rxb : List Byte) (s : State) : exec (.rx rxb) s = .next (receive rxb s) := rfl

/-! ### What is discarded -/

/-- A DATA datagram acts only as the in-order block (R163, R164, R171, R172). -/
theorem receiveData_of_not_inOrderFor {s : State} {blk : Half} {payload : List Byte}
    (h : ¬ s.inOrderFor blk payload) : receiveData blk payload s = s := by
  rcases receiveData_cases blk payload s with hsame | ⟨hs, hp, hb, -⟩
  · exact hsame
  · exact absurd ((inOrderFor_iff s blk payload).2 ⟨hs, hp, hb⟩) h

theorem receiveError_of_not_awaiting {s : State} (h : s.regs.state ≠ .awaiting) (code : Half) (msg : List Byte) :
    receiveError code msg s = s := by
  rw [receiveError, if_pos h]

theorem receiveError_of_awaiting {s : State} (h : s.regs.state = .awaiting) (code : Half) (msg : List Byte) :
    receiveError code msg s = protocolError code msg s := by
  rw [receiveError, if_neg (not_not_intro h)]

theorem receive_of_not_awaiting {s : State} (h : s.regs.state ≠ .awaiting) (rxb : List Byte) :
    receive rxb s = s := by
  rcases receive_cases rxb s with hsame | ⟨blk, payload, -, hdata⟩ | ⟨code, msg, -, herror⟩
  · exact hsame
  · rw [hdata, receiveData_of_not_inOrderFor fun ho => h ho.1]
  · rw [herror, receiveError_of_not_awaiting h]

/-- A datagram is discarded, or it is DATA with a payload of whole codewords, or it is ERROR, and the last two have
a whole header (R86, R88, R172). -/
theorem receive_discard_or_wellFormed (rxb : List Byte) (s : State) :
    receive rxb s = s ∨
      (∃ (hi lo : Byte) (payload : List Byte), rxb = [0x00#8, 0x03#8, hi, lo] ++ payload ∧
        payload.length ≤ 512 ∧ payload.length % 4 = 0) ∨
      ∃ (hi lo : Byte) (msg : List Byte), rxb = [0x00#8, 0x05#8, hi, lo] ++ msg := by
  rcases receive_cases rxb s with hsame | ⟨blk, payload, hc, hdata⟩ | ⟨code, msg, hc, -⟩
  · exact .inl hsame
  · obtain ⟨hi, lo, -, hrxb⟩ := rxClass_data hc
    by_cases ho : s.inOrderFor blk payload
    · obtain ⟨-, hmax, hmod, -⟩ := ho
      exact .inr (.inl ⟨hi, lo, payload, hrxb, hmax, hmod⟩)
    · exact .inl (by rw [hdata, receiveData_of_not_inOrderFor ho])
  · obtain ⟨hi, lo, -, hrxb⟩ := rxClass_error hc
    exact .inr (.inr ⟨hi, lo, msg, hrxb⟩)

theorem receive_of_length_lt_four {rxb : List Byte} (h : rxb.length < 4) (s : State) : receive rxb s = s := by
  rcases receive_discard_or_wellFormed rxb s with hsame | ⟨hi, lo, payload, rfl, -⟩ | ⟨hi, lo, msg, rfl⟩
  · exact hsame
  · exact absurd h (by simp)
  · exact absurd h (by simp)

/-- Settles O17: outside AWAITING every class of datagram keeps the state. -/
theorem rxOutsideAwaitingDoesNothing : Obligations.RxOutsideAwaitingDoesNothing := by
  unfold Obligations.RxOutsideAwaitingDoesNothing
  intro s rxb h
  rw [exec_rx, receive_of_not_awaiting h]

/-- Settles O18: a datagram that acts has one of the two well-formed shapes, and each defect excludes both. -/
theorem malformedDatagramsAreDiscarded : Obligations.MalformedDatagramsAreDiscarded := by
  unfold Obligations.MalformedDatagramsAreDiscarded
  intro s rxb
  rw [exec_rx]
  refine ⟨fun hshort => by rw [receive_of_length_lt_four (by omega)], ?_⟩
  intro o1 o0 rest hrxb hbad
  rcases receive_discard_or_wellFormed rxb s with hsame | ⟨hi, lo, payload, rfl, hmax, hmod⟩ | ⟨hi, lo, msg, rfl⟩
  · rw [hsame]
  · cases hrxb
    exact absurd hbad (by simp; omega)
  · cases hrxb
    exact absurd hbad (by simp)

/-- Settles O19: the number is not the one of the in-order block. -/
theorem outOfOrderDataIsDiscarded : Obligations.OutOfOrderDataIsDiscarded := by
  unfold Obligations.OutOfOrderDataIsDiscarded
  intro s blk payload i hi hb
  rw [exec_isData hi, receiveData_of_not_inOrderFor fun ⟨_, _, _, hnext⟩ => hb hnext]

/-! ### The in-order block -/

theorem receiveData_of_decode_some {s : State} {blk : Half} {payload bytes : List Byte} {w : Carry}
    (ho : s.inOrderFor blk payload) (hd : decodePayload s.regs.carry payload = some (bytes, w)) :
    receiveData blk payload s =
      if bytes.length < s.cfg.finalThreshold then finishTransfer blk bytes w (s.upd Regs.disarm)
      else acceptBlock blk bytes w (s.upd Regs.disarm) := by
  rw [receiveData_of_inOrderFor ho, inOrderData, hd]

/-- Settles O20: the branch of `acceptBlock`, behind the disarming of R166. -/
theorem acceptedBlockIsCommittedAndAcknowledged : Obligations.AcceptedBlockIsCommittedAndAcknowledged := by
  unfold Obligations.AcceptedBlockIsCommittedAndAcknowledged
  intro s blk payload bytes w i hi ho hd hlen
  rw [exec_isData hi, receiveData_of_decode_some ho hd, if_neg (Nat.not_lt.2 hlen), acceptBlock_eq]
  rfl

/-- Settles O21: the branch of `finishTransfer`; the timer is the one R166 has disarmed. -/
theorem finalBlockEndsTheTransfer : Obligations.FinalBlockEndsTheTransfer := by
  unfold Obligations.FinalBlockEndsTheTransfer
  intro s blk payload bytes w i hi ho hd hlen
  rw [exec_isData hi, receiveData_of_decode_some ho hd, if_pos hlen, finishTransfer_eq]
  rfl

/-- Settles O22: the branch of `rejectBlock`, which commits nothing. -/
theorem rejectedBlockIsAnsweredByNack : Obligations.RejectedBlockIsAnsweredByNack := by
  unfold Obligations.RejectedBlockIsAnsweredByNack
  intro s blk payload i hi ho hd
  rw [exec_isData hi, receiveData_of_decode_none ho hd, rejectBlock_eq]
  rfl

/-! ### The protocol ERROR -/

/-- Settles O23: the two branches of `receiveError`; without its code the datagram has no whole header. -/
theorem errorResponseFailsTheTransfer : Obligations.ErrorResponseFailsTheTransfer := by
  unfold Obligations.ErrorResponseFailsTheTransfer
  intro s
  refine ⟨fun code msg i hi => ?_, fun rest hshort => ?_⟩
  · rw [exec_isError hi]
    refine ⟨fun hs => ?_, fun hs => ?_⟩
    · rw [receiveError_of_awaiting hs, protocolError_eq]; rfl
    · rw [receiveError_of_not_awaiting hs]
  · rw [exec_rx, receive_of_length_lt_four]
    simp; omega

end Sys2Proof.Proofs
end

section
/-! Encoded operations (`30_encoding.md` R84 to R92): the decoder undoes the encoder, accepts well-formed operands
only, and names an operation by its opcode. -/

namespace Sys2Proof.Proofs

open Sys2Proof.Laws

/-! ### The datagrams of each opcode -/

theorem decodeDatagram_request (rest : List Byte) :
    decodeDatagram (0x00#8 :: 0x01#8 :: rest) = (requestStrings rest).map fun p => .request p.1 p.2 := rfl

theorem decodeDatagram_errreq (rest : List Byte) :
    decodeDatagram (0x00#8 :: 0x02#8 :: rest) = (requestStrings rest).map fun p => .errreq p.1 p.2 := rfl

theorem decodeDatagram_data (f1 f0 : Byte) (payload : List Byte) :
    decodeDatagram (0x00#8 :: 0x03#8 :: f1 :: f0 :: payload) =
      (checkPayload payload).map fun p => .data (be16 f1 f0) p := rfl

theorem decodeDatagram_ack (f1 f0 : Byte) :
    decodeDatagram [0x00#8, 0x04#8, f1, f0] = .ok (.ack (be16 f1 f0)) := rfl

theorem decodeDatagram_error (f1 f0 : Byte) (msg : List Byte) :
    decodeDatagram (0x00#8 :: 0x05#8 :: f1 :: f0 :: msg) = .ok (.error (be16 f1 f0) msg) := rfl

theorem decodeDatagram_nack (f1 f0 : Byte) :
    decodeDatagram [0x00#8, 0x06#8, f1, f0] = .ok (.nack (be16 f1 f0)) := rfl

/-- Settles O9, row by row: events and codec operations carry their operands as they are, the strings of a request end
at their zero bytes, and a 16-bit field is its two bytes. -/
theorem decodeOfEncodeIsTheOperation : Obligations.DecodeOfEncodeIsTheOperation := by
  unfold Obligations.DecodeOfEncodeIsTheOperation
  intro i hwf
  cases i
  case request fname mode =>
    obtain ⟨hf, hm⟩ := Bool.and_eq_true_iff.1 hwf
    show decodeDatagram (0x00#8 :: 0x01#8 :: (fname ++ [0x00#8] ++ mode ++ [0x00#8])) = _
    rw [decodeDatagram_request, requestStrings_append hf hm]
    rfl
  case errreq fname mode =>
    obtain ⟨hf, hm⟩ := Bool.and_eq_true_iff.1 hwf
    show decodeDatagram (0x00#8 :: 0x02#8 :: (fname ++ [0x00#8] ++ mode ++ [0x00#8])) = _
    rw [decodeDatagram_errreq, requestStrings_append hf hm]
    rfl
  case data blk payload =>
    show decodeDatagram (0x00#8 :: 0x03#8 :: hiByte blk :: loByte blk :: payload) = _
    rw [decodeDatagram_data, checkPayload_of_ok hwf, be16_hiByte_loByte]
    rfl
  case ack blk => rw [encode, decode, decodeDatagram_ack, be16_hiByte_loByte]
  case error code msg =>
    show decodeDatagram (0x00#8 :: 0x05#8 :: hiByte code :: loByte code :: msg) = _
    rw [decodeDatagram_error, be16_hiByte_loByte]
  case nack blk => rw [encode, decode, decodeDatagram_nack, be16_hiByte_loByte]
  case rsmPack b => rw [encode, decode, decodeDatapath, if_pos (of_decide_eq_true hwf)]
  case rsmStep w g => simp only [encode, decode, decodeDatapath, carryOfBits_bits]
  case rsmPayload payload => rw [encode, decode, decodeDatapath, checkPayload_of_ok hwf]; rfl
  all_goals rfl

/-! ### What the decoder accepts -/

/-- Every way in which a datagram is accepted: its opcode, the operation it names, and the operands checked (R90). -/
theorem decodeDatagram_cases {o1 o0 : Byte} {rest : List Byte} {i : Instr}
    (h : decodeDatagram (o1 :: o0 :: rest) = .ok i) :
    ((be16 o1 o0).toNat = 1 ∧ ∃ f m, i = .request f m ∧ noZeroByte f = true ∧ noZeroByte m = true) ∨
    ((be16 o1 o0).toNat = 2 ∧ ∃ f m, i = .errreq f m ∧ noZeroByte f = true ∧ noZeroByte m = true) ∨
    ((be16 o1 o0).toNat = 3 ∧ ∃ b p, i = .data b p ∧ payloadOk p = true) ∨
    ((be16 o1 o0).toNat = 4 ∧ ∃ b, i = .ack b) ∨
    ((be16 o1 o0).toNat = 5 ∧ ∃ c m, i = .error c m) ∨
    ((be16 o1 o0).toNat = 6 ∧ ∃ b, i = .nack b) := by
  simp only [decodeDatagram] at h
  split at h
  case h_1 hop =>
    obtain ⟨⟨f, m⟩, hstrings, rfl⟩ := map_ok h
    exact .inl ⟨hop, f, m, rfl, noZeroByte_of_requestStrings hstrings⟩
  case h_2 hop =>
    obtain ⟨⟨f, m⟩, hstrings, rfl⟩ := map_ok h
    exact .inr (.inl ⟨hop, f, m, rfl, noZeroByte_of_requestStrings hstrings⟩)
  case h_3 hop =>
    split at h
    · cases h
    · obtain ⟨p, hp, rfl⟩ := map_ok h
      exact .inr (.inr (.inl ⟨hop, _, p, rfl, payloadOk_of_checkPayload hp⟩))
  case h_4 hop =>
    obtain ⟨b, -, rfl⟩ := map_ok h
    exact .inr (.inr (.inr (.inl ⟨hop, b, rfl⟩)))
  case h_5 hop =>
    obtain ⟨⟨c, m⟩, -, rfl⟩ := map_ok h
    exact .inr (.inr (.inr (.inr (.inl ⟨hop, c, m, rfl⟩))))
  case h_6 hop =>
    obtain ⟨b, -, rfl⟩ := map_ok h
    exact .inr (.inr (.inr (.inr (.inr ⟨hop, b, rfl⟩))))
  case h_7 => cases h

theorem wellFormed_of_decodeDatagram {bytes : List Byte} {i : Instr} (h : decodeDatagram bytes = .ok i) :
    i.wellFormed = true := by
  match bytes, h with
  | o1 :: o0 :: rest, h =>
    rcases decodeDatagram_cases h with ⟨-, f, m, rfl, hf, hm⟩ | ⟨-, f, m, rfl, hf, hm⟩ | ⟨-, b, p, rfl, hp⟩ |
      ⟨-, b, rfl⟩ | ⟨-, c, m, rfl⟩ | ⟨-, b, rfl⟩
    · exact Bool.and_eq_true_iff.2 ⟨hf, hm⟩
    · exact Bool.and_eq_true_iff.2 ⟨hf, hm⟩
    · exact hp
    all_goals rfl

theorem wellFormed_decodeEvent (code : BitVec 3) (lines : EventLines) : (decodeEvent code lines).wellFormed = true := by
  unfold decodeEvent
  split <;> rfl

theorem wellFormed_of_decodeDatapath {op : DatapathOp} {lines : DatapathLines} {i : Instr}
    (h : decodeDatapath op lines = .ok i) : i.wellFormed = true := by
  cases op
  case rsmPack =>
    rw [decodeDatapath] at h
    split at h
    case isTrue hlen => cases h; exact decide_eq_true hlen
    case isFalse => cases h
  case rsmStep =>
    rw [decodeDatapath] at h
    split at h <;> cases h
    rfl
  case rsmPayload =>
    obtain ⟨payload, hp, rfl⟩ := map_ok h
    exact payloadOk_of_checkPayload hp
  all_goals cases h; rfl

/-- Settles O10: each of the three ports checks the operands it passes on. -/
theorem decodedOperationsAreWellFormed : Obligations.DecodedOperationsAreWellFormed := by
  unfold Obligations.DecodedOperationsAreWellFormed
  intro input i h
  cases input with
  | event code lines => cases h; exact wellFormed_decodeEvent code lines
  | datagram bytes => exact wellFormed_of_decodeDatagram h
  | datapath op lines => exact wellFormed_of_decodeDatapath h

/-- Settles O11: the opcodes of `decodeDatagram_cases`, read as two bytes. -/
theorem wireOpcodeMap : Obligations.WireOpcodeMap := by
  unfold Obligations.WireOpcodeMap
  intro o1 o0 rest i h
  rw [← toNat_be16]
  rcases decodeDatagram_cases h with ⟨hop, f, m, rfl, -⟩ | ⟨hop, f, m, rfl, -⟩ | ⟨hop, b, p, rfl, -⟩ | hack | herror |
    hnack
  · exact .inl ⟨hop, f, m, rfl⟩
  · exact .inr (.inl ⟨hop, f, m, rfl⟩)
  · exact .inr (.inr (.inl ⟨hop, b, p, rfl⟩))
  · exact .inr (.inr (.inr (.inl hack)))
  · exact .inr (.inr (.inr (.inr (.inl herror))))
  · exact .inr (.inr (.inr (.inr (.inr hnack))))

/-- Settles O12: the decoder run on the sixteen words. -/
theorem tableWordsDecodeToTheirRows : Obligations.TableWordsDecodeToTheirRows := by
  unfold Obligations.TableWordsDecodeToTheirRows
  exact ⟨rfl, rfl, rfl, rfl, rfl, rfl, rfl, rfl, rfl, rfl, rfl, rfl, rfl, rfl, rfl, rfl⟩

end Sys2Proof.Proofs
end

section
/-! One step (`00_scope.md` R6, `60_exceptions.md` R214): what it does with the input it takes in, and what no operation
writes (`70_reset_and_hazards.md` R236). -/

namespace Sys2Proof.Proofs

open Sys2Proof.Machine Sys2Proof.Laws

/-! ### What no operation writes -/

/-- No operation writes the parameters or the inputs still to come. -/
theorem exec_keeps_cfg_pending {i : Instr} {s t : State} (he : exec i s = .next t) :
    t.cfg = s.cfg ∧ t.pending = s.pending := by
  cases i <;> cases he
  case data blk payload => have h := receiveData_boundary blk payload s; exact ⟨h.cfg, h.pending⟩
  case error code msg => have h := receiveError_boundary code msg s; exact ⟨h.cfg, h.pending⟩
  case start em fname mode => have h := startTransfer_boundary em fname mode s; exact ⟨h.cfg, h.pending⟩
  case rx rxb => have h := receive_boundary rxb s; exact ⟨h.cfg, h.pending⟩
  case tick => have h := countDown_boundary s; exact ⟨h.cfg, h.pending⟩
  case sinkfail => have h := sinkFailure_boundary s; exact ⟨h.cfg, h.pending⟩
  all_goals exact ⟨rfl, rfl⟩

theorem exec_keeps_cfg {i : Instr} {s t : State} (he : exec i s = .next t) : t.cfg = s.cfg :=
  (exec_keeps_cfg_pending he).1

/-- Settles O6: every arm of `exec` answers a next state. -/
theorem everyOperationCompletes : Obligations.EveryOperationCompletes := by
  unfold Obligations.EveryOperationCompletes
  intro i s
  cases i <;> exact ⟨_, rfl⟩

/-! ### The step -/

theorem step_of_pending_nil {s : State} (h : s.pending = []) : step s = .next s := by
  rw [step, h]

theorem step_of_decode_ok {s : State} {input : Input} {rest : List Input} {i : Instr} (h : s.pending = input :: rest)
    (hd : decode input = .ok i) : step s = exec i (s.taking rest) := by
  simp only [step, h, hd]

theorem step_of_decode_error {s : State} {input : Input} {rest : List Input} {e : DecodeError}
    (h : s.pending = input :: rest) (hd : decode input = .error e) : step s = undecoded input e (s.taking rest) := by
  simp only [step, h, hd]

/-- A step that answers has waited, discarded an input that is no operation, or run the operation taken in. -/
theorem step_cases {s t : State} (h : step s = .next t) :
    t = s ∨ (∃ rest, t = s.taking rest) ∨ ∃ rest i, exec i (s.taking rest) = .next t := by
  cases hp : s.pending with
  | nil => rw [step_of_pending_nil hp] at h; cases h; exact .inl rfl
  | cons input rest =>
    cases hd : decode input with
    | ok i => rw [step_of_decode_ok hp hd] at h; exact .inr (.inr ⟨rest, i, h⟩)
    | error e =>
      rw [step_of_decode_error hp hd] at h
      cases input with
      | datagram bytes => cases h; exact .inr (.inl ⟨rest, rfl⟩)
      | event code lines => cases h
      | datapath op lines => cases h

/-- Settles O3: the empty queue is the waiting branch of `step`. -/
theorem waitingLeavesAllStateUnchanged : Obligations.WaitingLeavesAllStateUnchanged := by
  unfold Obligations.WaitingLeavesAllStateUnchanged
  exact fun s h => step_of_pending_nil h

/-- Settles O4: the state the operation runs in is `s.taking rest`. -/
theorem stepRunsTheDecodedOperation : Obligations.StepRunsTheDecodedOperation := by
  unfold Obligations.StepRunsTheDecodedOperation
  intro s input rest i hp hd
  rw [step_of_decode_ok hp hd, State.taking]

/-- Settles O5: every event decodes, its operation completes, and completing leaves the queue alone. -/
theorem everyEventIsProcessedInOneStep : Obligations.EveryEventIsProcessedInOneStep := by
  unfold Obligations.EveryEventIsProcessedInOneStep
  intro s code lines rest hp
  obtain ⟨t, he⟩ := everyOperationCompletes (decodeEvent code lines) (s.taking rest)
  obtain ⟨-, hpending⟩ := exec_keeps_cfg_pending he
  exact ⟨t, (step_of_decode_ok hp rfl).trans he, hpending⟩

/-- Settles O7: the two branches of `undecoded`. -/
theorem inputsThatAreNoOperation : Obligations.InputsThatAreNoOperation := by
  unfold Obligations.InputsThatAreNoOperation
  intro s rest e
  refine ⟨fun bytes hp hd => ?_, fun op lines hp hd => ?_⟩
  · rw [step_of_decode_error hp hd, undecoded, State.taking]
  · rw [step_of_decode_error hp hd, undecoded]

/-- The START of a clock period, as it is delivered (R207). -/
def startEvents (p : Period) : List Input :=
  (p.start.map fun l => Input.event 1 { em := l.em, fname := l.fname, mode := l.mode }).toList

/-- The SINKFAIL of a clock period, as it is delivered (R207). -/
def sinkfailEvents (p : Period) : List Input := if p.sinkfail then [.event 4 { }] else []

theorem period_order_eq (startFirst : Bool) (p : Period) :
    p.order startFirst = (if p.reset then [.event 5 { }] else []) ++
      (if startFirst then startEvents p ++ sinkfailEvents p else sinkfailEvents p ++ startEvents p) ++
      (p.rx.map fun b => Input.event 2 { rxb := b }).toList ++ (if p.tick then [.event 3 { }] else []) := by
  obtain ⟨reset, start, sinkfail, rx, tick⟩ := p
  cases start <;> cases rx <;> rfl

/-- Settles O8: the parameter says which of the two orders of START and SINKFAIL is meant. -/
theorem periodIsDeliveredInOrder : Obligations.PeriodIsDeliveredInOrder := by
  unfold Obligations.PeriodIsDeliveredInOrder
  intro s p
  refine ⟨if s.cfg.startBeforeSinkfail then startEvents p ++ sinkfailEvents p else sinkfailEvents p ++ startEvents p,
    ?_, by rw [State.deliver, period_order_eq]⟩
  split
  · exact .inl rfl
  · exact .inr rfl

end Sys2Proof.Proofs
end

section
/-! The codec operations issued alone (`40_codec.md` R121 to R125) and `strip_zeros` (`42_transfer_fsm.md` R181). -/

namespace Sys2Proof.Proofs

open Sys2Proof.Machine Sys2Proof.Laws

/-! ### The operation each codec row runs -/

theorem exec_cwSyn (cw : Codeword) (s : State) : exec (.cwSyn cw) s =
    .next { s with flags := { syn := some (syndrome cw) }, result := some (.syndrome (syndrome cw)) } := rfl

theorem exec_cwCor (cw : Codeword) (syn : BitVec 5) (s : State) : exec (.cwCor cw syn) s =
    .next { s with flags := { }, result := some (.corrected (correct cw syn)) } := rfl

theorem exec_cwOpc (cw : Codeword) (s : State) : exec (.cwOpc cw) s =
    .next { s with flags := { par := some (overallParity cw) }, result := some (.parity (overallParity cw)) } := rfl

theorem exec_cwExt (cw : Codeword) (s : State) : exec (.cwExt cw) s =
    .next { s with flags := { }, result := some (.group (extract cw)) } := rfl

theorem exec_cwDecode (cw : Codeword) (s : State) : exec (.cwDecode cw) s = .next { s with
      flags :=
        { syn := some (syndrome cw)
          par := some (overallParity (correct cw (syndrome cw)))
          unc := some (overallParity (correct cw (syndrome cw))) }
      result := some (.decoded (decodeCodeword cw)) } := rfl

/-! ### The syndrome -/

/-- A position lies in class `2^j` when bit `j` of its number is set (R121). -/
theorem and_twoPow_ne_zero (n j : Nat) : (n &&& 2 ^ j != 0) = n.testBit j := by
  rw [Nat.and_two_pow]
  cases n.testBit j <;> simp

theorem classParity_eq_countP (j : Nat) (cw : Codeword) : classParity (2 ^ j) cw =
    decide ((List.range 32).countP (fun i => (i + 1).testBit j && cw.getLsbD i) % 2 = 1) := by
  rw [classParity, parity_map_eq_countP, classPositions, List.countP_filter]
  simp only [and_twoPow_ne_zero, Bool.and_comm]

/-- Settles O27: bit `j` of the syndrome is the parity of class `2^j`. -/
theorem syndromeIsTheFiveClassParities : Obligations.SyndromeIsTheFiveClassParities := by
  unfold Obligations.SyndromeIsTheFiveClassParities
  intro s cw
  refine ⟨syndrome cw, exec_cwSyn cw s, fun j hj => ?_⟩
  rw [getLsbD_syndrome cw hj, classParity_eq_countP]

/-- The parity over the positions picked out is that of all positions, the others masked to 0. -/
theorem parity_map_filter {α : Type} (p f : α → Bool) (l : List α) :
    parity ((l.filter p).map f) = parity (l.map fun x => f x && p x) := by
  induction l with
  | nil => rfl
  | cons x l ih =>
    rw [List.map_cons, parity_cons, ← ih, List.filter_cons]
    cases p x <;> simp

/-- A mask that holds the positions of a class gives its parity (R121). -/
theorem classParity_eq_overallParity_and {k : Nat} {mask : Codeword}
    (h : ∀ i < 32, ((i + 1) &&& k != 0) = mask.getLsbD i) (cw : Codeword) :
    classParity k cw = overallParity (cw &&& mask) := by
  rw [classParity, classPositions, parity_map_filter, overallParity, toBits]
  refine congrArg parity (List.map_congr_left fun i hi => ?_)
  rw [h i (List.mem_range.1 hi), BitVec.getLsbD_and]

/-- Settles O28: each mask holds the positions of its class. -/
theorem syndromeClassesAreTheMasks : Obligations.SyndromeClassesAreTheMasks := by
  unfold Obligations.SyndromeClassesAreTheMasks
  intro cw
  exact ⟨classParity_eq_overallParity_and (by decide) cw, classParity_eq_overallParity_and (by decide) cw,
    classParity_eq_overallParity_and (by decide) cw, classParity_eq_overallParity_and (by decide) cw,
    classParity_eq_overallParity_and (by decide) cw⟩

/-! ### Correction -/

theorem getLsbD_correct (cw : Codeword) (syn : BitVec 5) {i : Nat} (hi : i < 32) :
    (correct cw syn).getLsbD i = if i + 1 = syn.toNat then !cw.getLsbD i else cw.getLsbD i := by
  unfold correct
  by_cases hsyn : syn = 0#5
  · rw [if_pos hsyn, if_neg (by simp [hsyn])]
  · have hpos : syn.toNat ≠ 0 := fun h => hsyn (BitVec.eq_of_toNat_eq h)
    have hiff : i = syn.toNat - 1 ↔ i + 1 = syn.toNat := by omega
    rw [if_neg hsyn, getLsbD_flipBit _ _ _ hi]
    simp only [hiff]

/-- Settles O29: the answer is `correct cw syn`. -/
theorem correctionInvertsTheNamedPosition : Obligations.CorrectionInvertsTheNamedPosition := by
  unfold Obligations.CorrectionInvertsTheNamedPosition
  intro s cw syn
  exact ⟨correct cw syn, exec_cwCor cw syn s, fun i hi => getLsbD_correct cw syn hi⟩

/-- A syndrome that is not 0 is the class number of the position it names. -/
theorem ofNat_class_of_syndrome {syn : BitVec 5} (h : syn ≠ 0#5) : BitVec.ofNat 5 (syn.toNat - 1 + 1) = syn := by
  have hpos : syn.toNat ≠ 0 := fun hz => h (BitVec.eq_of_toNat_eq hz)
  rw [Nat.sub_add_cancel (Nat.pos_of_ne_zero hpos), BitVec.ofNat_toNat, BitVec.setWidth_eq]

/-- Settles O30: the syndrome is linear, and the flipped position has the syndrome that named it. -/
theorem correctedCodewordHasSyndromeZero : Obligations.CorrectedCodewordHasSyndromeZero := by
  unfold Obligations.CorrectedCodewordHasSyndromeZero
  intro cw
  by_cases h : syndrome cw = 0#5
  · rw [correct_of_syndrome_zero h, h]
  · have hlt := (syndrome cw).isLt
    rw [correct, if_neg h, flipBit, syndrome_flip (by omega), ofNat_class_of_syndrome h, BitVec.xor_self]

/-! ### Parity, extraction, decode -/

/-- Settles O31: the parity of the list of all bits is their count modulo 2. -/
theorem overallParityCountsAllPositions : Obligations.OverallParityCountsAllPositions := by
  unfold Obligations.OverallParityCountsAllPositions
  intro s cw
  exact ⟨overallParity cw, exec_cwOpc cw s, parity_map_eq_countP _ _⟩

theorem extract_twoPow_check : ∀ p ∈ [0, 1, 3, 7, 15, 31], extract (BitVec.twoPow 32 p) = 0#26 := by decide +kernel

/-- Settles O32: the extraction reads the data positions, and by linearity a check position adds nothing to it. -/
theorem extractionReversesTheDataPositions : Obligations.ExtractionReversesTheDataPositions := by
  unfold Obligations.ExtractionReversesTheDataPositions
  intro s cw
  refine ⟨extract cw, exec_cwExt cw s, fun j hj => ?_, fun p hp => ?_⟩
  · rw [getLsbD_extract cw (by omega), show 25 - (25 - j) = j by omega, dataPos]
  · rw [extract_xor, extract_twoPow_check p hp, BitVec.xor_zero]

/-- Settles O33: the parity behind the correction is the parity of the input, turned over if a position was flipped. -/
theorem decodeHasTheFourOutcomes : Obligations.DecodeHasTheFourOutcomes := by
  unfold Obligations.DecodeHasTheFourOutcomes
  intro s cw
  refine ⟨_, _, exec_cwDecode cw s, fun hs hp => ?_, fun hs hp => ?_, fun hs hp => ?_, fun hs hp => ?_⟩ <;>
    rw [overallParity_correct]
  · rw [if_pos hs]; exact ⟨hp, decodeCodeword_of_valid ⟨hs, hp⟩⟩
  · rw [if_pos hs]; exact ⟨hp, decodeCodeword_of_syndrome_zero_of_odd hs hp⟩
  · rw [if_neg hs, hp, decodeCodeword_of_syndrome_ne_zero_of_odd hs hp, correct, if_neg hs, flipBit]
    exact ⟨rfl, rfl⟩
  · rw [if_neg hs, hp, decodeCodeword_of_syndrome_ne_zero_of_even hs hp]
    exact ⟨rfl, rfl⟩

/-! ### Trailing zeros -/

/-- Settles O26, by induction on the last byte: a zero byte at the end is stripped, any other ends the result. -/
theorem stripZerosRemovesExactlyTheTrailingZeros : Obligations.StripZerosRemovesExactlyTheTrailingZeros := by
  unfold Obligations.StripZerosRemovesExactlyTheTrailingZeros
  intro bytes
  induction bytes using List.reverseRecOn with
  | nil => exact ⟨⟨0, rfl⟩, nofun⟩
  | append_singleton bytes b ih =>
    by_cases hb : b = 0x00#8
    · obtain ⟨⟨n, hn⟩, hlast⟩ := ih
      rw [hb, stripZeros_append_zero]
      refine ⟨⟨n + 1, ?_⟩, hlast⟩
      rw [List.replicate_succ', ← List.append_assoc, ← hn]
    · rw [stripZeros_append_nonzero bytes b hb]
      exact ⟨⟨0, (List.append_nil _).symm⟩, by simpa using hb⟩

end Sys2Proof.Proofs
end

section
/-! The reassembler operations issued alone (`41_reassembler.md` R143 to R146), the datagrams sent alone
(`42_transfer_fsm.md` R178 to R180), and the codes and signals of the registers (`10_state.md` R21 to R28). -/

namespace Sys2Proof.Proofs

open Sys2Proof.Machine Sys2Proof.Laws

/-! ### The reassembler -/

theorem exec_rsmPack (b : List Bool) (s : State) :
    exec (.rsmPack b) s = .next { s with flags := { }, result := some (.packed (packBytes b)) } := rfl

theorem exec_rsmStep (w : Carry) (g : Group) (s : State) : exec (.rsmStep w g) s =
    .next { s with flags := { }, result := some (.stepped (rsmStep w g).1 (rsmStep w g).2) } := rfl

theorem exec_rsmPayload (payload : List Byte) (s : State) : exec (.rsmPayload payload) s = .next { s with
      flags := { plOk := some (decodePayload s.regs.carry payload).isSome }
      result := some (.payload (decodePayload s.regs.carry payload)) } := rfl

/-- Settles O39: packing keeps the sequence of bits, and a bit of a byte list is read by division by 8. -/
theorem packPutsTheFirstBitLowest : Obligations.PackPutsTheFirstBitLowest := by
  unfold Obligations.PackPutsTheFirstBitLowest
  intro s b hb
  refine ⟨packBytes b, exec_rsmPack b s, length_packBytes b, fun m t _ ht => ?_⟩
  have hread := getD_bitsOf (packBytes b) (8 * m + t)
  rw [bitsOf_packBytes b hb, show (8 * m + t) / 8 = m by omega, show (8 * m + t) % 8 = t by omega] at hread
  exact hread.symm

/-- Settles O40: the stream equation of one step, its byte count, and the cycle of the carry lengths. -/
theorem stepEmitsCarryThenGroup : Obligations.StepEmitsCarryThenGroup := by
  unfold Obligations.StepEmitsCarryThenGroup
  intro s w g
  refine ⟨_, _, exec_rsmStep w g s, rsmStep_bits w g, rsmStep_length w g, ?_⟩
  rw [rsmStep_carry_len]
  omega

/-- Settles O41: the loop fails at an Uncorrectable codeword only, and otherwise keeps to the stream. -/
theorem payloadDecodesAllOrNothing : Obligations.PayloadDecodesAllOrNothing := by
  unfold Obligations.PayloadDecodesAllOrNothing
  intro s payload _ _
  exact ⟨_, exec_rsmPayload payload s, rfl, decodePayload_eq_none_iff _ payload, fun _ _ hd => decodePayload_stream hd⟩

/-! ### Sent datagrams -/

theorem exec_ack (blk : Half) (s : State) :
    exec (.ack blk) s = .next { s with effects := s.effects ++ [.tx (ackBytes blk)] } := rfl

theorem exec_nack (blk : Half) (s : State) :
    exec (.nack blk) s = .next { s with effects := s.effects ++ [.tx (nackBytes blk)] } := rfl

theorem exec_request (fname mode : List Byte) (s : State) : exec (.request fname mode) s =
    .next { s with effects := s.effects ++ [.tx (requestBytes false fname mode)] } := rfl

theorem exec_errreq (fname mode : List Byte) (s : State) : exec (.errreq fname mode) s =
    .next { s with effects := s.effects ++ [.tx (requestBytes true fname mode)] } := rfl

/-- Settles O24: the two values of `em` give the two opcodes. -/
theorem requestDatagramsAreTransmitted : Obligations.RequestDatagramsAreTransmitted := by
  unfold Obligations.RequestDatagramsAreTransmitted
  intro s fname mode
  rw [exec_request, exec_errreq, requestBytes_eq, requestBytes_eq]
  exact ⟨rfl, rfl⟩

/-- Settles O25: quotient and remainder by 256 are the two bytes of the block number. -/
theorem responseDatagramsAreTransmitted : Obligations.ResponseDatagramsAreTransmitted := by
  unfold Obligations.ResponseDatagramsAreTransmitted
  intro s blk hi lo hhi hlo
  have ehi : hiByte blk = hi := BitVec.eq_of_toNat_eq ((toNat_hiByte blk).trans hhi.symm)
  have elo : loByte blk = lo := BitVec.eq_of_toNat_eq ((toNat_loByte blk).trans hlo.symm)
  rw [exec_ack, exec_nack, ackBytes, nackBytes, ehi, elo]
  exact ⟨rfl, rfl⟩

/-! ### The codes and signals of the registers -/

theorem success_iff (s : State) : s.success = true ↔ s.regs.state = .done ∧ s.regs.sinkFault = false := by
  simp [State.success]

theorem getLsbD_carry_signal (c : Carry) {j : Nat} (hj : j < 6) : c.signal.getLsbD j = c.bits.getD j false := by
  rw [Carry.signal, getLsbD_ofBits, decide_eq_true hj, Bool.true_and]

/-- Settles O59: the table of the codes, and the carry signal as the word of the carry's bits. -/
theorem verdictAndStatusCodes : Obligations.VerdictAndStatusCodes := by
  unfold Obligations.VerdictAndStatusCodes
  exact ⟨success_iff, rfl, rfl, rfl, rfl, rfl, rfl, rfl, rfl, rfl, rfl, rfl, rfl, rfl,
    fun c => ⟨carry_len_legal c, fun j hj => getLsbD_carry_signal c hj⟩⟩

end Sys2Proof.Proofs
end

section
/-! The invariants of `10_state.md` R33 and R28: they hold after reset, and every operation, hence every step, keeps
them. -/

namespace Sys2Proof.Proofs

open Sys2Proof.Machine Sys2Proof.Laws

/-! ### What the invariants say in one state of the transfer -/

theorem failCause_eq_none_of_inv {r : Regs} {c : Config} (h : r.inv c) (hs : r.state ≠ .failed) :
    r.failCause = .none := by
  obtain ⟨-, -, -, -, -, hcause, -, -⟩ := h
  exact not_not.1 fun hne => hs (hcause.1 hne)

theorem errCode_eq_zero_of_inv {r : Regs} {c : Config} (h : r.inv c) (hs : r.state ≠ .failed) : r.errCode = 0 := by
  have hnone := failCause_eq_none_of_inv h hs
  obtain ⟨-, -, -, -, -, -, -, hcode⟩ := h
  exact hcode (by rw [hnone]; decide)

/-- In AWAITING the invariants are about the timer and the last response, and no cause is recorded. -/
theorem inv_iff_of_awaiting {r : Regs} {c : Config} (hs : r.state = .awaiting) :
    r.inv c ↔ (r.timerArmed = true → r.lastKind = .ack ∨ r.lastKind = .nack) ∧ r.countInRange c.ackTicks ∧
      (r.lastKind = .ack → r.lastBlk = r.expected) ∧ (r.lastKind = .nack → r.lastBlk = nextBlk r.expected) ∧
      r.failCause = .none ∧ r.errCode = 0 := by
  have hfailed : r.state ≠ .failed := by rw [hs]; decide
  constructor
  · intro h
    have hcause := failCause_eq_none_of_inv h hfailed
    have hcode := errCode_eq_zero_of_inv h hfailed
    obtain ⟨-, harmed, hcount, hlast, -⟩ := h
    exact ⟨fun ha => (harmed ha).2, hcount, (hlast hs).1, (hlast hs).2, hcause, hcode⟩
  · rintro ⟨harmed, hcount, hack, hnack, hcause, hcode⟩
    exact ⟨carry_len_legal _, fun ha => ⟨hs, harmed ha⟩, hcount, fun _ => ⟨hack, hnack⟩, .inr (.inl hs),
      iff_of_false (not_not_intro hcause) hfailed, fun hidle => by simp [hs] at hidle, fun _ => hcode⟩

/-- In DONE and in FAILED the timer is off, and the cause says which of the two it is. -/
theorem inv_of_ended {r : Regs} {c : Config} (hs : r.state = .done ∨ r.state = .failed) (ha : r.timerArmed = false)
    (hcount : r.timerCount = 0) (hcause : r.causeMatches) (hcode : r.codeMatches) : r.inv c := by
  have hidle : r.state ≠ .idle := by rcases hs with hs | hs <;> rw [hs] <;> decide
  have hawaiting : r.state ≠ .awaiting := by rcases hs with hs | hs <;> rw [hs] <;> decide
  exact ⟨carry_len_legal _, fun h => absurd (ha.symm.trans h) (by decide),
    ⟨fun h => absurd (ha.symm.trans h) (by decide), fun _ => hcount⟩, fun h => absurd h hawaiting, .inr (.inr hs),
    hcause, fun h => absurd h hidle, hcode⟩

theorem inv_reset (c : Config) : Regs.reset.inv c :=
  ⟨.inl rfl, nofun, ⟨nofun, fun _ => rfl⟩, nofun, .inl rfl, by decide, fun _ => rfl, fun _ => rfl⟩

/-! ### The register writes of the operations -/

/-- START (R161): the timer is off and nothing has been sent, since IDLE holds the reset values. -/
theorem inv_start {r : Regs} {c : Config} (h : r.inv c) (hs : r.state = .idle) (em : Bool) :
    ((r.setEm em).goto .awaiting).inv c := by
  obtain ⟨-, -, -, -, -, -, hreset, -⟩ := h
  rw [hreset hs]
  exact (inv_iff_of_awaiting rfl).2 ⟨nofun, ⟨nofun, fun _ => rfl⟩, nofun, nofun, rfl, rfl⟩

/-- The ACK path (R167): the response is about the block just committed. -/
theorem inv_acked {r : Regs} {c : Config} (h : r.inv c) (hs : r.state = .awaiting) (hc : 1 ≤ c.ackTicks) (w : Carry)
    (blk : Half) :
    ((((r.disarm.commit w blk).recordLast .ack blk).arm c.ackTicks).goto .awaiting).inv c := by
  obtain ⟨-, -, -, -, hcause, hcode⟩ := (inv_iff_of_awaiting hs).1 h
  exact (inv_iff_of_awaiting rfl).2
    ⟨fun _ => .inl rfl, ⟨fun _ => ⟨hc, le_rfl⟩, nofun⟩, fun _ => rfl, nofun, hcause, hcode⟩

/-- The NACK path (R169): the response is about the block still awaited. -/
theorem inv_nacked {r : Regs} {c : Config} (h : r.inv c) (hs : r.state = .awaiting) (hn : 1 ≤ c.nackTicks)
    (hmax : c.nackTicks ≤ c.ackTicks) {blk : Half} (hblk : blk = nextBlk r.expected) :
    (((r.disarm.recordLast .nack blk).arm c.nackTicks).goto .awaiting).inv c := by
  obtain ⟨-, -, -, -, hcause, hcode⟩ := (inv_iff_of_awaiting hs).1 h
  exact (inv_iff_of_awaiting rfl).2
    ⟨fun _ => .inr rfl, ⟨fun _ => ⟨hn, hmax⟩, nofun⟩, nofun, fun _ => hblk, hcause, hcode⟩

/-- The final block (R168): no cause, the timer off. -/
theorem inv_finished {r : Regs} {c : Config} (h : r.inv c) (hs : r.state = .awaiting) (w : Carry) (blk : Half) :
    ((r.disarm.commit w blk).goto .done).inv c := by
  obtain ⟨-, -, -, -, hcause, hcode⟩ := (inv_iff_of_awaiting hs).1 h
  exact inv_of_ended (.inl rfl) rfl rfl (iff_of_false (not_not_intro hcause) nofun) fun _ => hcode

/-- Entry to FAILED (`60_exceptions.md` R208), from registers that hold no code but for a protocol ERROR. -/
theorem inv_fail {r : Regs} {c : Config} {cause : FailCause} (hcause : cause ≠ .none)
    (hcode : cause ≠ .protocol → r.errCode = 0) : (r.fail cause).inv c :=
  inv_of_ended (.inr rfl) rfl rfl (iff_of_true hcause rfl) hcode

theorem state_eq_awaiting_of_armed {r : Regs} {c : Config} (h : r.inv c) (ha : r.timerArmed = true) :
    r.state = .awaiting := by
  obtain ⟨-, harmed, -⟩ := h
  exact (harmed ha).1

/-- The timer (R173, R174): an armed count may take any value in range. -/
theorem inv_setCount {r : Regs} {c : Config} (h : r.inv c) (ha : r.timerArmed = true) {n : Nat} (hn : 1 ≤ n)
    (hmax : n ≤ c.ackTicks) : (r.setCount n).inv c := by
  have hs := state_eq_awaiting_of_armed h ha
  obtain ⟨harmed, -, hrest⟩ := (inv_iff_of_awaiting hs).1 h
  exact (inv_iff_of_awaiting (r := r.setCount n) hs).2
    ⟨harmed, ⟨fun _ => ⟨hn, hmax⟩, fun hoff => absurd (ha.symm.trans hoff) (by decide)⟩, hrest⟩

/-- Outside IDLE no invariant speaks of the sticky bit (R176). -/
theorem inv_setSinkFault {r : Regs} {c : Config} (h : r.inv c) (hs : r.state ≠ .idle) : r.setSinkFault.inv c := by
  obtain ⟨hcarry, harmed, hcount, hlast, hsettled, hcause, -, hcode⟩ := h
  exact ⟨hcarry, harmed, hcount, hlast, hsettled, hcause, fun hidle => absurd hidle hs, hcode⟩

/-! ### One operation, one step -/

theorem timerCount_le_of_inv {r : Regs} {c : Config} (h : r.inv c) (ha : r.timerArmed = true) :
    r.timerCount ≤ c.ackTicks := by
  obtain ⟨-, -, ⟨hrange, -⟩, -⟩ := h
  exact (hrange ha).2

/-- Every operation keeps the registers within the invariants. -/
theorem exec_keeps_regs_inv {i : Instr} {s t : State} (he : exec i s = .next t) (hinv : s.inv) :
    t.regs.inv s.cfg := by
  obtain ⟨⟨-, -, hnack, hless, -⟩, h⟩ := id hinv
  have hack : 1 ≤ s.cfg.ackTicks := by omega
  cases exec_cases he with
  | same _ hr _ => rw [hr]; exact h
  | sent _ _ _ hr _ => rw [hr]; exact h
  | start em _ _ _ hs ht => rw [ht]; exact inv_start h hs em
  | accept blk _ _ w _ _ ho _ _ ht => rw [ht, acceptBlock_eq]; exact inv_acked h ho.1 hack w blk
  | final blk _ _ w _ _ ho _ _ ht => rw [ht, finishTransfer_eq]; exact inv_finished h ho.1 w blk
  | reject blk payload _ _ ho _ ht =>
    obtain ⟨hs, -, hblk⟩ := (inOrderFor_iff s blk payload).1 ho
    rw [ht, rejectBlock_eq]
    exact inv_nacked h hs hnack hless.le hblk
  | error _ _ _ _ _ ht => rw [ht, protocolError_eq]; exact inv_fail (by decide) fun hne => absurd rfl hne
  | count _ ha hc ht =>
    have hmax := timerCount_le_of_inv h ha
    rw [ht]
    exact inv_setCount h ha (by omega) (by omega)
  | expireNone _ ha _ hk _ => simp [timerArmed_eq_false_of_lastKind_none hinv hk] at ha
  | expireAck _ ha _ _ ht => rw [ht]; exact inv_setCount h ha hack le_rfl
  | expireNack _ ha _ _ ht => rw [ht]; exact inv_setCount h ha hnack hless.le
  | sinkAwaiting _ hs ht =>
    obtain ⟨-, -, -, -, -, hcode⟩ := (inv_iff_of_awaiting hs).1 h
    rw [ht]
    exact inv_fail (by decide) fun _ => hcode
  | sinkLater _ hs _ ht => rw [ht]; exact inv_setSinkFault h hs
  | reset _ ht => rw [ht]; exact inv_reset s.cfg

theorem exec_keeps_inv {i : Instr} {s t : State} (he : exec i s = .next t) (hinv : s.inv) : t.inv := by
  have hregs := exec_keeps_regs_inv he hinv
  obtain ⟨hok, -⟩ := hinv
  rw [← exec_keeps_cfg he] at hok hregs
  exact ⟨hok, hregs⟩

/-- Settles O44: taking an input in writes no register, and the operation it decodes to keeps the invariants. -/
theorem everyStepKeepsTheInvariants : Obligations.EveryStepKeepsTheInvariants := by
  unfold Obligations.EveryStepKeepsTheInvariants
  intro s t hinv h
  rcases step_cases h with rfl | ⟨rest, rfl⟩ | ⟨rest, i, he⟩
  · exact hinv
  · exact hinv
  · exact exec_keeps_inv (s := s.taking rest) he hinv

theorem configImplementation_ok : Config.implementation.ok := by
  have hthreshold := Config.freeThreshold.isLt
  have hwidth := Nat.lt_log2_self (n := Config.implementation.ackTicks)
  refine ⟨Nat.le_add_left _ _, hthreshold, Nat.le_add_left _ _, Nat.lt_add_of_pos_right (Nat.succ_pos _), ?_⟩
  exact hwidth.trans_le (Nat.pow_le_pow_right (by decide) (Nat.le_add_right _ _))

/-- Settles O43: the parameters are built to meet R9 whatever their open values, and `inv_reset` is about the rest. -/
theorem resetMeetsTheInvariants : Obligations.ResetMeetsTheInvariants := by
  unfold Obligations.ResetMeetsTheInvariants
  exact ⟨⟨configImplementation_ok, inv_reset _⟩, rfl⟩

/-! ### The end states -/

/-- The transfer has ended, and no timer is left running (R182). -/
def Ended (s : State) : Prop := (s.regs.state = .done ∨ s.regs.state = .failed) ∧ s.regs.timerArmed = false

theorem Ended.ne_idle {s : State} (h : Ended s) : s.regs.state ≠ .idle := by
  rcases h.1 with hs | hs <;> rw [hs] <;> decide

theorem Ended.ne_awaiting {s : State} (h : Ended s) : s.regs.state ≠ .awaiting := by
  rcases h.1 with hs | hs <;> rw [hs] <;> decide

theorem ended_of_inv {s : State} (hinv : s.inv) (hs : s.regs.state = .done ∨ s.regs.state = .failed) : Ended s := by
  refine ⟨hs, Bool.eq_false_iff.2 fun ha => ?_⟩
  have hawaiting := state_eq_awaiting_of_armed hinv.2 ha
  rcases hs with hs | hs <;> simp [hs] at hawaiting

/-- Behind the end an event emits nothing, and only SINKFAIL writes a register (R182, R209). -/
theorem exec_of_ended {i : Instr} {s t : State} (hended : Ended s) (hevent : i.isEvent = true) (hreset : i ≠ .reset)
    (he : exec i s = .next t) :
    t.effects = s.effects ∧ (t.regs = s.regs ∨ i = .sinkfail ∧ t.regs = s.regs.setSinkFault) := by
  have hidle := hended.ne_idle
  have hawaiting := hended.ne_awaiting
  have harmed : s.regs.timerArmed ≠ true := Bool.eq_false_iff.1 hended.2
  cases exec_cases he with
  | same _ hr he => exact ⟨he, .inl hr⟩
  | sent _ _ hi _ _ => exact absurd (hevent.symm.trans hi) (by decide)
  | start _ _ _ _ hs _ => exact absurd hs hidle
  | accept _ _ _ _ _ _ ho _ _ _ => exact absurd ho.1 hawaiting
  | final _ _ _ _ _ _ ho _ _ _ => exact absurd ho.1 hawaiting
  | reject _ _ _ _ ho _ _ => exact absurd ho.1 hawaiting
  | error _ _ _ _ hs _ => exact absurd hs hawaiting
  | count _ ha _ _ => exact absurd ha harmed
  | expireNone _ ha _ _ _ => exact absurd ha harmed
  | expireAck _ ha _ _ _ => exact absurd ha harmed
  | expireNack _ ha _ _ _ => exact absurd ha harmed
  | sinkAwaiting _ hs _ => exact absurd hs hawaiting
  | sinkLater hi _ _ ht => rw [ht]; exact ⟨rfl, .inr ⟨hi, rfl⟩⟩
  | reset hi _ => exact absurd hi hreset

/-- Settles O47: of the events that act outside IDLE and AWAITING only SINKFAIL is left, which sets its bit. -/
theorem endStatesAreAbsorbing : Obligations.EndStatesAreAbsorbing := by
  unfold Obligations.EndStatesAreAbsorbing
  intro i s t hinv hevent hreset hs he
  have hended := ended_of_inv hinv hs
  obtain ⟨heffects, hregs⟩ := exec_of_ended hended hevent hreset he
  refine ⟨heffects, fun hi => hregs.resolve_right fun h => hi h.1, ?_⟩
  rintro rfl
  obtain ⟨-, -, hlater⟩ := sinkFailureIsRecordedAndEndsATransfer s
  cases (hlater hended.ne_idle hended.ne_awaiting).symm.trans he
  rfl

end Sys2Proof.Proofs
end

section
/-! What the operations of a transfer write and emit (`42_transfer_fsm.md` R183, `20_memory.md` R61, R62): the causes
of a transition, what a commit writes, the shapes of the effects of an event, and the end of a transfer. -/

namespace Sys2Proof.Proofs

open Sys2Proof.Machine Sys2Proof.Laws

/-! ### The transitions -/

/-- Settles O48: `state` is written by START, by the final block, by the two failures and by RESET; the ACK and the
NACK path come back to AWAITING. -/
theorem stateChangesOnlyForItsCauses : Obligations.StateChangesOnlyForItsCauses := by
  unfold Obligations.StateChangesOnlyForItsCauses
  intro i s t he hchange
  cases exec_cases he with
  | same _ hr _ => exact absurd (by rw [hr]) hchange
  | sent _ _ _ hr _ => exact absurd (by rw [hr]) hchange
  | start em fname mode hi hs ht => exact .inl ⟨hs, by rw [ht]; rfl, em, fname, mode, hi⟩
  | accept _ _ _ _ _ _ ho _ _ ht => exact absurd (by rw [ht, acceptBlock_eq, ho.1]; rfl) hchange
  | final _ payload bytes w _ ha ho hd hl ht =>
    exact .inr (.inl ⟨ho.1, by rw [ht, finishTransfer_eq]; rfl, payload, bytes, w, ha, hd, hl⟩)
  | reject _ _ _ _ ho _ ht => exact absurd (by rw [ht, rejectBlock_eq, ho.1]; rfl) hchange
  | error code msg hi _ hs ht =>
    exact .inr (.inr (.inl ⟨hs, by rw [ht, protocolError_eq]; rfl, .inr ⟨code, msg, hi⟩⟩))
  | count _ _ _ ht => exact absurd (by rw [ht]; rfl) hchange
  | expireNone _ _ _ _ ht => exact absurd (by rw [ht]; rfl) hchange
  | expireAck _ _ _ _ ht => exact absurd (by rw [ht]; rfl) hchange
  | expireNack _ _ _ _ ht => exact absurd (by rw [ht]; rfl) hchange
  | sinkAwaiting hi hs ht => exact .inr (.inr (.inl ⟨hs, by rw [ht]; rfl, .inl hi⟩))
  | sinkLater _ _ _ ht => exact absurd (by rw [ht]; rfl) hchange
  | reset hi ht => exact .inr (.inr (.inr ⟨by rw [ht]; rfl, hi⟩))

/-! ### The commit -/

/-- `expected`, the carry and the sink have their old values. -/
structure CommitKept (s t : State) : Prop where
  expected : t.regs.expected = s.regs.expected
  carry : t.regs.carry = s.regs.carry
  sink : t.sink = s.sink

theorem commitKept_of_effects_append {s t : State} {new : List Effect} (he : t.effects = s.effects ++ new)
    (hsink : sinkOf new = []) (hexpected : t.regs.expected = s.regs.expected)
    (hcarry : t.regs.carry = s.regs.carry) : CommitKept s t :=
  ⟨hexpected, hcarry, by rw [sink_of_effects_append he, hsink, List.append_nil]⟩

/-- A block with this decode has been committed: R23, R24, and the bytes stripped if it is the final one (R168). -/
structure Committed (s t : State) (blk : Half) (bytes : List Byte) (w : Carry) : Prop where
  expected : t.regs.expected = blk
  carry : t.regs.carry = w
  sink : t.sink = s.sink ++ (if bytes.length < s.cfg.finalThreshold then stripZeros bytes else bytes)

theorem committed_acceptBlock {s : State} {bytes : List Byte} (hl : s.cfg.finalThreshold ≤ bytes.length) (blk : Half)
    (w : Carry) : Committed s (acceptBlock blk bytes w (s.upd Regs.disarm)) blk bytes w := by
  have hsink : sinkOf [.sinkAppend bytes, .tx (ackBytes blk)] = bytes := List.append_nil bytes
  rw [acceptBlock_eq]
  exact ⟨rfl, rfl, by rw [sink_of_effects_append (s := s) rfl, hsink, if_neg (Nat.not_lt.2 hl)]⟩

theorem sinkOf_finalEffects (s : State) (blk : Half) (bytes : List Byte) :
    sinkOf (finalEffects s blk bytes) = stripZeros bytes := by
  rw [finalEffects]
  split <;> exact List.append_nil _

theorem committed_finishTransfer {s : State} {bytes : List Byte} (hl : bytes.length < s.cfg.finalThreshold)
    (blk : Half) (w : Carry) : Committed s (finishTransfer blk bytes w (s.upd Regs.disarm)) blk bytes w := by
  rw [finishTransfer_eq]
  exact ⟨rfl, rfl, by rw [sink_of_effects_append (s := s) rfl, sinkOf_finalEffects, if_pos hl]⟩

/-- An operation accepts no block and keeps all that a commit writes, or commits the block it accepts (R242). -/
theorem exec_commit_cases {i : Instr} {s t : State} (he : exec i s = .next t) (hreset : i ≠ .reset) :
    (acceptedPayload i s = none ∧ CommitKept s t) ∨
      ∃ blk payload bytes w, acceptedPayload i s = some payload ∧ s.inOrderFor blk payload ∧
        decodePayload s.regs.carry payload = some (bytes, w) ∧ Committed s t blk bytes w := by
  cases exec_cases he with
  | same ha hr hnew => exact .inl ⟨ha, by rw [hr], by rw [hr], by rw [State.sink, hnew, State.sink]⟩
  | sent _ ha _ hr hnew => exact .inl ⟨ha, commitKept_of_effects_append hnew rfl (by rw [hr]) (by rw [hr])⟩
  | start _ _ _ hi _ ht => subst hi ht; exact .inl ⟨rfl, commitKept_of_effects_append rfl rfl rfl rfl⟩
  | accept blk payload bytes w _ ha ho hd hl ht =>
    exact .inr ⟨blk, payload, bytes, w, ha, ho, hd, ht ▸ committed_acceptBlock hl blk w⟩
  | final blk payload bytes w _ ha ho hd hl ht =>
    exact .inr ⟨blk, payload, bytes, w, ha, ho, hd, ht ▸ committed_finishTransfer hl blk w⟩
  | reject _ _ _ ha _ _ ht =>
    rw [rejectBlock_eq] at ht; subst ht; exact .inl ⟨ha, commitKept_of_effects_append rfl rfl rfl rfl⟩
  | error _ _ _ ha _ ht =>
    rw [protocolError_eq] at ht; subst ht; exact .inl ⟨ha, commitKept_of_effects_append rfl rfl rfl rfl⟩
  | count hi _ _ ht => subst hi ht; exact .inl ⟨rfl, rfl, rfl, rfl⟩
  | expireNone hi _ _ _ ht => subst hi ht; exact .inl ⟨rfl, rfl, rfl, rfl⟩
  | expireAck hi _ _ _ ht => subst hi ht; exact .inl ⟨rfl, commitKept_of_effects_append rfl rfl rfl rfl⟩
  | expireNack hi _ _ _ ht => subst hi ht; exact .inl ⟨rfl, commitKept_of_effects_append rfl rfl rfl rfl⟩
  | sinkAwaiting hi _ ht => subst hi ht; exact .inl ⟨rfl, rfl, rfl, rfl⟩
  | sinkLater hi _ _ ht => subst hi ht; exact .inl ⟨rfl, rfl, rfl, rfl⟩
  | reset hi _ => exact absurd hi hreset

/-- Settles O46: the two cases of `exec_commit_cases` exclude each other by `acceptedPayload`. -/
theorem commitHappensOnlyOnAcceptance : Obligations.CommitHappensOnlyOnAcceptance := by
  unfold Obligations.CommitHappensOnlyOnAcceptance
  intro i s t he hreset
  rcases exec_commit_cases he hreset with ⟨ha, hkept⟩ | ⟨blk, payload, bytes, w, ha, ho, hd, hcommit⟩ <;> rw [ha]
  · exact ⟨fun _ => ⟨hkept.expected, hkept.carry, hkept.sink⟩, nofun⟩
  · obtain ⟨-, -, -, hblk⟩ := ho
    refine ⟨nofun, fun payload' hpayload => ?_⟩
    cases hpayload
    exact ⟨bytes, w, hd, hcommit.expected ▸ hblk, hcommit.carry, hcommit.sink⟩

/-! ### The effects of an event -/

/-- Settles O49: one shape for each way an event ends; waiting, counting, SINKFAIL and RESET emit nothing. -/
theorem eventEffectsAreOneOfTheseShapes : Obligations.EventEffectsAreOneOfTheseShapes := by
  unfold Obligations.EventEffectsAreOneOfTheseShapes
  intro i s t hevent he
  cases exec_cases he with
  | same _ _ hnew => exact ⟨[], by rw [hnew, List.append_nil], .inl rfl⟩
  | sent _ _ hi _ _ => exact absurd (hevent.symm.trans hi) (by decide)
  | start em f m hi hs ht => exact ⟨_, by rw [ht], .inr (.inl ⟨em, f, m, hi, hs, rfl⟩)⟩
  | accept blk payload bytes w hi _ ho hd hl ht =>
    exact ⟨_, by rw [ht, acceptBlock_eq]; rfl, .inr (.inr (.inl ⟨blk, payload, bytes, w, hi, ho, hd, hl, rfl⟩))⟩
  | final blk payload bytes w hi _ ho hd hl ht =>
    exact ⟨_, by rw [ht, finishTransfer_eq]; rfl,
      .inr (.inr (.inr (.inl ⟨blk, payload, bytes, w, hi, ho, hd, hl, rfl⟩)))⟩
  | reject blk payload hi _ ho hd ht =>
    exact ⟨_, by rw [ht, rejectBlock_eq]; rfl, .inr (.inr (.inr (.inr (.inl ⟨blk, payload, hi, ho, hd, rfl⟩))))⟩
  | error code msg hi _ hs ht =>
    exact ⟨_, by rw [ht, protocolError_eq], .inr (.inr (.inr (.inr (.inr (.inl ⟨code, msg, hi, hs, rfl⟩)))))⟩
  | count _ _ _ ht => exact ⟨[], by rw [ht, List.append_nil]; rfl, .inl rfl⟩
  | expireNone _ _ _ _ ht => exact ⟨[], by rw [ht, List.append_nil]; rfl, .inl rfl⟩
  | expireAck hi ha hc hk ht =>
    exact ⟨_, by rw [ht], .inr (.inr (.inr (.inr (.inr (.inr ⟨hi, ha, hc, .inl ⟨hk, rfl⟩⟩)))))⟩
  | expireNack hi ha hc hk ht =>
    exact ⟨_, by rw [ht], .inr (.inr (.inr (.inr (.inr (.inr ⟨hi, ha, hc, .inr ⟨hk, rfl⟩⟩)))))⟩
  | sinkAwaiting _ _ ht => exact ⟨[], by rw [ht, List.append_nil]; rfl, .inl rfl⟩
  | sinkLater _ _ _ ht => exact ⟨[], by rw [ht, List.append_nil]; rfl, .inl rfl⟩
  | reset _ ht => exact ⟨[], by rw [ht, List.append_nil]; rfl, .inl rfl⟩

/-! ### The end of a transfer -/

/-- No report and no close is among the effects. -/
def EndsNothing (new : List Effect) : Prop := ∀ e ∈ new, e.isEnding = false ∧ e ≠ .sinkClose

/-- The effects end with the close and the report behind it, and hold no others. -/
def EndsTransfer (new : List Effect) : Prop :=
  ∃ front report, EndsNothing front ∧ report.isEnding = true ∧ new = front ++ [.sinkClose, report]

theorem endsNothing_append {a b : List Effect} (ha : EndsNothing a) (hb : EndsNothing b) : EndsNothing (a ++ b) :=
  fun e he => (List.mem_append.1 he).elim (ha e) (hb e)

theorem endsTransfer_append {a b : List Effect} (ha : EndsNothing a) (hb : EndsTransfer b) : EndsTransfer (a ++ b) := by
  obtain ⟨front, report, hfront, hreport, rfl⟩ := hb
  exact ⟨a ++ front, report, endsNothing_append ha hfront, hreport, (List.append_assoc ..).symm⟩

theorem endsTransfer_finalEffects (s : State) (blk : Half) (bytes : List Byte) :
    EndsTransfer (finalEffects s blk bytes) := by
  refine ⟨[.sinkAppend (stripZeros bytes)] ++ (if s.cfg.finalAck then [.tx (ackBytes blk)] else []) ++ [.sinkFlush],
    .doneOk, ?_, rfl, by simp [finalEffects]⟩
  split <;> simp [EndsNothing, Effect.isEnding]

theorem endsNothing_tx (bytes : List Byte) : EndsNothing [.tx bytes] := by simp [EndsNothing, Effect.isEnding]

/-- An operation appends effects that keep the transfer open, or ends it with its last two effects. -/
theorem exec_ending_cases {i : Instr} {s t : State} (he : exec i s = .next t) :
    ∃ new, t.effects = s.effects ++ new ∧ (EndsNothing new ∨ EndsTransfer new ∧ Ended t) := by
  cases exec_cases he with
  | same _ _ hnew => exact ⟨[], by rw [hnew, List.append_nil], .inl nofun⟩
  | sent _ _ _ _ hnew => exact ⟨_, hnew, .inl (endsNothing_tx _)⟩
  | start _ _ _ _ _ ht => exact ⟨_, by rw [ht], .inl (endsNothing_tx _)⟩
  | accept _ _ _ _ _ _ _ _ _ ht =>
    exact ⟨_, by rw [ht, acceptBlock_eq]; rfl, .inl (by simp [EndsNothing, Effect.isEnding])⟩
  | final _ _ _ _ _ _ _ _ _ ht =>
    rw [finishTransfer_eq] at ht
    subst ht
    exact ⟨_, rfl, .inr ⟨endsTransfer_finalEffects _ _ _, .inl rfl, rfl⟩⟩
  | reject _ _ _ _ _ _ ht => exact ⟨_, by rw [ht, rejectBlock_eq]; rfl, .inl (endsNothing_tx _)⟩
  | error code msg _ _ _ ht =>
    rw [protocolError_eq] at ht
    subst ht
    have hfront : EndsNothing [.sinkFlush] := by simp [EndsNothing, Effect.isEnding]
    exact ⟨_, rfl, .inr ⟨⟨[.sinkFlush], .errCb code msg, hfront, rfl, rfl⟩, .inr rfl, rfl⟩⟩
  | count _ _ _ ht => exact ⟨[], by rw [ht, List.append_nil]; rfl, .inl nofun⟩
  | expireNone _ _ _ _ ht => exact ⟨[], by rw [ht, List.append_nil]; rfl, .inl nofun⟩
  | expireAck _ _ _ _ ht => exact ⟨_, by rw [ht], .inl (endsNothing_tx _)⟩
  | expireNack _ _ _ _ ht => exact ⟨_, by rw [ht], .inl (endsNothing_tx _)⟩
  | sinkAwaiting _ _ ht => exact ⟨[], by rw [ht, List.append_nil]; rfl, .inl nofun⟩
  | sinkLater _ _ _ ht => exact ⟨[], by rw [ht, List.append_nil]; rfl, .inl nofun⟩
  | reset _ ht => exact ⟨[], by rw [ht, List.append_nil]; rfl, .inl nofun⟩

/-- Settles O45: the effects of `exec_ending_cases`, and the frame. -/
theorem operationsOnlyAppendEffects : Obligations.OperationsOnlyAppendEffects := by
  unfold Obligations.OperationsOnlyAppendEffects
  intro i s t he
  obtain ⟨hcfg, hpending⟩ := exec_keeps_cfg_pending he
  obtain ⟨new, hnew, -⟩ := exec_ending_cases he
  exact ⟨hcfg, hpending, new, hnew⟩

theorem ended_of_exec {i : Instr} {s t : State} (hended : Ended s) (hevent : i.isEvent = true) (hreset : i ≠ .reset)
    (he : exec i s = .next t) : Ended t := by
  obtain ⟨-, hr | ⟨-, hr⟩⟩ := exec_of_ended hended hevent hreset he
  · rw [Ended, hr]; exact hended
  · rw [Ended, hr]; exact hended

theorem runOps_of_ended {ops : List Instr} {s t : State} (hops : ∀ i ∈ ops, i.isEvent = true ∧ i ≠ .reset)
    (h : runOps ops s = .next t) (hended : Ended s) : t.effects = s.effects := by
  induction ops generalizing s with
  | nil => cases h; rfl
  | cons i rest ih =>
    obtain ⟨u, hu, hrest⟩ := runOps_cons h
    obtain ⟨⟨hevent, hreset⟩, hops⟩ := List.forall_mem_cons.1 hops
    rw [ih hops hrest (ended_of_exec hended hevent hreset hu), (exec_of_ended hended hevent hreset hu).1]

/-- A run keeps the transfer open, or its effects end with the close and the report. -/
theorem runOps_ending_cases {ops : List Instr} {s t : State} (hops : ∀ i ∈ ops, i.isEvent = true ∧ i ≠ .reset)
    (h : runOps ops s = .next t) : ∃ new, t.effects = s.effects ++ new ∧ (EndsNothing new ∨ EndsTransfer new) := by
  induction ops generalizing s with
  | nil => cases h; exact ⟨[], (List.append_nil _).symm, .inl nofun⟩
  | cons i rest ih =>
    obtain ⟨u, hu, hrest⟩ := runOps_cons h
    obtain ⟨-, hops⟩ := List.forall_mem_cons.1 hops
    obtain ⟨new, hnew, hopen | ⟨hends, hended⟩⟩ := exec_ending_cases hu
    · obtain ⟨more, hmore, hcases⟩ := ih hops hrest
      exact ⟨new ++ more, by rw [hmore, hnew, List.append_assoc],
        hcases.imp (endsNothing_append hopen) (endsTransfer_append hopen)⟩
    · exact ⟨new, by rw [runOps_of_ended hops hrest hended, hnew], .inr hends⟩

theorem EndsNothing.countP_eq_zero {new : List Effect} (h : EndsNothing new) : new.countP Effect.isEnding = 0 :=
  List.countP_eq_zero.2 fun e he => by simp [(h e he).1]

theorem EndsNothing.not_mem {new : List Effect} (h : EndsNothing new) : .sinkClose ∉ new :=
  fun hmem => (h _ hmem).2 rfl

theorem ne_sinkClose_of_isEnding {e : Effect} (h : e.isEnding = true) : .sinkClose ≠ e := by
  rintro rfl
  cases h

theorem EndsTransfer.countP_eq_one {new : List Effect} (h : EndsTransfer new) : new.countP Effect.isEnding = 1 := by
  obtain ⟨front, report, hfront, hreport, rfl⟩ := h
  have hclose : Effect.sinkClose.isEnding = false := rfl
  simp [hfront.countP_eq_zero, hreport, hclose]

theorem EndsTransfer.count_sinkClose_eq_one {new : List Effect} (h : EndsTransfer new) : new.count .sinkClose = 1 := by
  obtain ⟨front, report, hfront, hreport, rfl⟩ := h
  simp [List.count_eq_zero.2 hfront.not_mem, (ne_sinkClose_of_isEnding hreport).symm]

/-- Behind the one close stands the one report. -/
theorem EndsTransfer.only_reports_after_close {before after : List Effect}
    (h : EndsTransfer (before ++ .sinkClose :: after)) : ∀ e ∈ after, e.isEnding = true := by
  obtain ⟨front, report, hfront, hreport, heq⟩ := h
  have hnotreport : Effect.sinkClose ∉ [report] := by simpa using ne_sinkClose_of_isEnding hreport
  obtain ⟨-, -, rfl⟩ := (List.append_cons_inj_of_notMem hfront.not_mem hnotreport).1 heq.symm
  simpa using hreport

/-- Settles O50, by induction on the run: once the close and the report are out, the transfer has ended and no event
emits anything. -/
theorem transferEndsAtMostOnce : Obligations.TransferEndsAtMostOnce := by
  unfold Obligations.TransferEndsAtMostOnce
  intro ops s t hops h
  obtain ⟨new, hnew, hopen | hends⟩ := runOps_ending_cases hops h
  · refine ⟨new, hnew, by simp [hopen.countP_eq_zero], by simp [List.count_eq_zero.2 hopen.not_mem], ?_⟩
    rintro before after rfl
    exact absurd (by simp) hopen.not_mem
  · refine ⟨new, hnew, hends.countP_eq_one.le, hends.count_sinkClose_eq_one.le, ?_⟩
    rintro before after rfl
    exact hends.only_reports_after_close

end Sys2Proof.Proofs
end

section
/-! The timer along a run of ticks (`42_transfer_fsm.md` R173, R174, R184, `60_exceptions.md` R206, R241). -/

namespace Sys2Proof.Proofs

open Sys2Proof.Machine Sys2Proof.Laws

theorem runOps_cons_of_exec {i : Instr} {s t : State} (he : exec i s = .next t) (rest : List Instr) :
    runOps (i :: rest) s = runOps rest t := by
  rw [runOps, he]

/-! ### Counting down -/

/-- The state behind `n` ticks that have not used up the count. -/
def ticked (n : Nat) (s : State) : State := s.upd fun r => r.setCount (r.timerCount - n)

theorem ticked_timerArmed (n : Nat) (s : State) : (ticked n s).regs.timerArmed = s.regs.timerArmed := rfl

theorem ticked_timerCount (n : Nat) (s : State) : (ticked n s).regs.timerCount = s.regs.timerCount - n := rfl

/-- Ticks below the count only lower it. -/
theorem runOps_ticks_below_count {s : State} (ha : s.regs.timerArmed = true) {n : Nat} (hn : n < s.regs.timerCount) :
    runOps (List.replicate n .tick) s = .next (ticked n s) := by
  induction n with
  | zero => rfl
  | succ n ih =>
    have hcount : 2 ≤ (ticked n s).regs.timerCount := by rw [ticked_timerCount]; omega
    rw [List.replicate_succ', runOps_append (ih (by omega)), runOps_cons_of_exec (exec_tick _),
      countDown_of_two_le ((ticked_timerArmed n s).trans ha) hcount]
    rfl

/-- As many ticks as the count are one expiry (R174). -/
theorem runOps_ticks_expire {s : State} (ha : s.regs.timerArmed = true) (hc : 1 ≤ s.regs.timerCount) :
    runOps (List.replicate s.regs.timerCount .tick) s = .next (timerExpiry (s.upd fun r => r.setCount 0)) := by
  obtain ⟨n, hn⟩ : ∃ n, s.regs.timerCount = n + 1 := ⟨s.regs.timerCount - 1, by omega⟩
  have hone : (ticked n s).regs.timerCount = 1 := by rw [ticked_timerCount]; omega
  rw [hn, List.replicate_succ', runOps_append (runOps_ticks_below_count ha (by omega)),
    runOps_cons_of_exec (exec_tick _), countDown_of_one ((ticked_timerArmed n s).trans ha) hone]
  rfl

theorem runOps_ticks_resend_ack {s : State} (ha : s.regs.timerArmed = true) (hc : 1 ≤ s.regs.timerCount)
    (hk : s.regs.lastKind = .ack) : runOps (List.replicate s.regs.timerCount .tick) s = .next { s with
      regs := { s.regs with timerCount := s.cfg.ackTicks }
      effects := s.effects ++ [.tx (ackBytes s.regs.lastBlk)] } :=
  (runOps_ticks_expire ha hc).trans (congrArg Host.Outcome.next (timerExpiry_of_ack hk))

theorem runOps_ticks_resend_nack {s : State} (ha : s.regs.timerArmed = true) (hc : 1 ≤ s.regs.timerCount)
    (hk : s.regs.lastKind = .nack) : runOps (List.replicate s.regs.timerCount .tick) s = .next { s with
      regs := { s.regs with timerCount := s.cfg.nackTicks }
      effects := s.effects ++ [.tx (nackBytes s.regs.lastBlk)] } :=
  (runOps_ticks_expire ha hc).trans (congrArg Host.Outcome.next (timerExpiry_of_nack hk))

/-- Settles O51: counting below the count, and the expiry at it. -/
theorem timerExpiresAfterExactlyItsCount : Obligations.TimerExpiresAfterExactlyItsCount := by
  unfold Obligations.TimerExpiresAfterExactlyItsCount
  intro s ha
  exact ⟨fun _ hn => runOps_ticks_below_count ha hn, runOps_ticks_resend_ack ha, runOps_ticks_resend_nack ha⟩

/-! ### Without limit -/

/-- Ticks that emit one effect and restore the registers, whatever has been emitted before, do so any number of
times. -/
theorem runOps_periodic {i : Instr} {n : Nat} {s : State} {e : Effect}
    (h : ∀ es, runOps (List.replicate n i) { s with effects := es } = .next { s with effects := es ++ [e] })
    (k : Nat) : runOps (List.replicate (k * n) i) s = .next { s with effects := s.effects ++ List.replicate k e } := by
  induction k with
  | zero => simp [runOps]
  | succ k ih =>
    rw [Nat.succ_mul, List.replicate_add, runOps_append ih, h, List.replicate_succ', List.append_assoc]

/-- Settles O52: a timer that is freshly loaded is so again behind its expiry. -/
theorem retransmissionHasNoLimit : Obligations.RetransmissionHasNoLimit := by
  unfold Obligations.RetransmissionHasNoLimit
  intro s k ha
  refine ⟨fun hk hload hc => runOps_periodic (fun es => ?_) k, fun hk hload hc => runOps_periodic (fun es => ?_) k⟩
  · have h := runOps_ticks_resend_ack (s := { s with effects := es }) ha (hc ▸ hload) hk
    rw [← hc] at h ⊢
    exact h
  · have h := runOps_ticks_resend_nack (s := { s with effects := es }) ha (hc ▸ hload) hk
    rw [← hc] at h ⊢
    exact h

/-! ### A block and a tick in one period -/

/-- Settles O54: the block loads the timer with at least 2, so the tick behind it only counts. -/
theorem supersededResponseIsNotResent : Obligations.SupersededResponseIsNotResent := by
  unfold Obligations.SupersededResponseIsNotResent
  intro s blk payload bytes w i hi hok ho hd hl
  obtain ⟨-, -, hnack, hless, -⟩ := hok
  have hload : 2 ≤ s.cfg.ackTicks := by omega
  rw [runOps_cons_of_exec (acceptedBlockIsCommittedAndAcknowledged s blk payload bytes w i hi ho hd hl),
    runOps_cons_of_exec (exec_tick _), countDown_of_two_le rfl hload]
  exact ⟨_, rfl, rfl, rfl, rfl⟩

end Sys2Proof.Proofs
end

section
/-! The status items are written and never read (`10_state.md` R25, R28): every operation takes two states that differ
in them alone to two states that differ in them alone. -/

namespace Sys2Proof.Proofs

open Sys2Proof.Machine Sys2Proof.Laws

/-- The second state is the first with any values in `em`, `fail_cause`, `err_code` and `sink_fault`. -/
def DiffersInStatus (s s' : State) : Prop :=
  ∃ em fc ec sf, s' = { s with regs := { s.regs with em := em, failCause := fc, errCode := ec, sinkFault := sf } }

theorem differsInStatus_inOrderData {s s' : State} (h : DiffersInStatus s s') (blk : Half) (payload : List Byte) :
    DiffersInStatus (inOrderData blk payload s) (inOrderData blk payload s') := by
  obtain ⟨em, fc, ec, sf, rfl⟩ := h
  rw [inOrderData, inOrderData]
  dsimp only
  split
  · rw [rejectBlock_eq, rejectBlock_eq]; exact ⟨_, _, _, _, rfl⟩
  · split
    · rw [finishTransfer_eq, finishTransfer_eq]; exact ⟨_, _, _, _, rfl⟩
    · rw [acceptBlock_eq, acceptBlock_eq]; exact ⟨_, _, _, _, rfl⟩

theorem differsInStatus_receiveData {s s' : State} (h : DiffersInStatus s s') (blk : Half) (payload : List Byte) :
    DiffersInStatus (receiveData blk payload s) (receiveData blk payload s') := by
  have hin := differsInStatus_inOrderData h blk payload
  obtain ⟨em, fc, ec, sf, rfl⟩ := h
  rw [receiveData, receiveData]
  dsimp only
  split_ifs
  · exact ⟨_, _, _, _, rfl⟩
  · exact ⟨_, _, _, _, rfl⟩
  · exact ⟨_, _, _, _, rfl⟩
  · exact hin

theorem differsInStatus_receiveError {s s' : State} (h : DiffersInStatus s s') (code : Half) (msg : List Byte) :
    DiffersInStatus (receiveError code msg s) (receiveError code msg s') := by
  obtain ⟨em, fc, ec, sf, rfl⟩ := h
  rw [receiveError, receiveError]
  dsimp only
  split_ifs
  · exact ⟨_, _, _, _, rfl⟩
  · rw [protocolError_eq, protocolError_eq]; exact ⟨_, _, _, _, rfl⟩

theorem differsInStatus_receive {s s' : State} (h : DiffersInStatus s s') (rxb : List Byte) :
    DiffersInStatus (receive rxb s) (receive rxb s') := by
  rw [receive, receive]
  cases rxClass rxb with
  | discard => exact h
  | data blk payload => exact differsInStatus_receiveData h blk payload
  | error code msg => exact differsInStatus_receiveError h code msg

theorem differsInStatus_countDown {s s' : State} (h : DiffersInStatus s s') :
    DiffersInStatus (countDown s) (countDown s') := by
  obtain ⟨em, fc, ec, sf, rfl⟩ := h
  rw [countDown, countDown]
  dsimp only
  split_ifs
  · rw [timerExpiry, timerExpiry]
    dsimp only [State.upd_regs, Regs.setCount_lastKind]
    split <;> exact ⟨_, _, _, _, rfl⟩
  · exact ⟨_, _, _, _, rfl⟩
  · exact ⟨_, _, _, _, rfl⟩

theorem differsInStatus_startTransfer {s s' : State} (h : DiffersInStatus s s') (em : Bool)
    (fname mode : List Byte) : DiffersInStatus (startTransfer em fname mode s) (startTransfer em fname mode s') := by
  obtain ⟨_, fc, ec, sf, rfl⟩ := h
  rw [startTransfer, startTransfer]
  dsimp only
  split_ifs
  · exact ⟨em, _, _, _, rfl⟩
  · exact ⟨_, _, _, _, rfl⟩

theorem differsInStatus_sinkFailure {s s' : State} (h : DiffersInStatus s s') :
    DiffersInStatus (sinkFailure s) (sinkFailure s') := by
  obtain ⟨em, fc, ec, sf, rfl⟩ := h
  rw [sinkFailure, sinkFailure]
  dsimp only
  split <;> exact ⟨_, _, _, _, rfl⟩

/-- No operation reads a status item. -/
theorem exec_differsInStatus {i : Instr} {s s' t t' : State} (h : DiffersInStatus s s') (he : exec i s = .next t)
    (he' : exec i s' = .next t') : DiffersInStatus t t' := by
  cases i <;> cases he <;> cases he'
  case data blk payload => exact differsInStatus_receiveData h blk payload
  case error code msg => exact differsInStatus_receiveError h code msg
  case start em fname mode => exact differsInStatus_startTransfer h em fname mode
  case rx rxb => exact differsInStatus_receive h rxb
  case tick => exact differsInStatus_countDown h
  case sinkfail => exact differsInStatus_sinkFailure h
  all_goals
    obtain ⟨em, fc, ec, sf, rfl⟩ := h
    exact ⟨_, _, _, _, rfl⟩

/-- Settles O58: states that differ in the status items alone agree on all that is listed. -/
theorem statusItemsAreNeverRead : Obligations.StatusItemsAreNeverRead := by
  unfold Obligations.StatusItemsAreNeverRead
  intro i s t t' em fc ec sf he he'
  obtain ⟨_, _, _, _, rfl⟩ := exec_differsInStatus ⟨em, fc, ec, sf, rfl⟩ he he'
  exact ⟨rfl, rfl, rfl, rfl⟩

end Sys2Proof.Proofs
end
